-- ==== Sys2Proof/Word.lean ====
section
/-! DEFINITION. The bit strings of the Xoodoo/Cyclist core: bytes, lanes and command words (00_scope.md section 5). -/

namespace Sys2Proof

/-- A byte (00_scope.md section 5). -/
abbrev Byte := BitVec 8

/-- A lane, also called a word: 32 bits, always unsigned (R10, R89). -/
abbrev Lane := BitVec 32

/-- A command word `CW`, bit 63 most significant (R51). -/
abbrev CommandWord := BitVec 64

end Sys2Proof
end

