-- ==== Sys2Proof/Config.lean ====
section
/-! DEFINITION. The constants the spec fixes for this hardware (R1, R2) and the two values it leaves open to host software (U19, log 12). -/

namespace Sys2Proof.Config

/-- Number of bytes of the state (R1). -/
def stateBytes : Nat := 48

/-- The most rounds of a permutation (R1). -/
def maxRounds : Nat := 12

/-- Hash-mode absorb rate in bytes (R1). -/
def hashAbsorbRate : Nat := 16

/-- Hash-mode squeeze rate in bytes (R1). -/
def hashSqueezeRate : Nat := 16

/-- `XoodyakRkin`, Keyed-mode absorb rate in bytes (R1). -/
def rkin : Nat := 44

/-- `XoodyakRkout`, Keyed-mode squeeze rate and, in both modes, the Crypt chunk size (R1). -/
def rkout : Nat := 24

/-- `XoodyakRatchet`, the number of bytes a ratchet squeezes (R1). -/
def ratchetBytes : Nat := 16

/-- The absorb rate of the counter path (R1, R105). -/
def counterRate : Nat := 1

/-- Longest block a Hash-mode Down has room for beside its padding byte (R106, 90_conflicts.md C3). -/
def hashMaxBlock : Nat := 47

/-- `AbsorbCdInit`: first block of an Absorb call (R2). -/
def absorbCdInit : Byte := 0x03#8

/-- `AbsorbCdMain`: continuation blocks (R2). -/
def absorbCdMain : Byte := 0x00#8

/-- `AbsorbKeyCd`: first block when absorbing a key (R2). -/
def absorbKeyCd : Byte := 0x02#8

/-- `SqueezeCuInit`: first Up of a squeeze (R2). -/
def squeezeCuInit : Byte := 0x40#8

/-- `CryptCuInit`: Up byte of the first Crypt chunk (R2). -/
def cryptCuInit : Byte := 0x80#8

/-- `CryptCuMain`: Up byte of the later Crypt chunks (R2). -/
def cryptCuMain : Byte := 0x00#8

/-- `CryptCd`: Down byte of every Crypt chunk (R2). -/
def cryptCd : Byte := 0x00#8

/-- `RatchetCu`: Up byte when squeezing ratchet bytes (R2). -/
def ratchetCu : Byte := 0x10#8

/-- `SqueezeKeyCu`: Up byte when squeezing a key (R2). -/
def squeezeKeyCu : Byte := 0x20#8

/-- AEAD key, nonce and tag length in bytes, checked by the host (R155). -/
def aeadBytes : Nat := 16

/-- FREE VALUE (U19, log 12): whether a host that finds both the AEAD key and the nonce of a wrong length reports the key
first. Host software only; no command of the core reads it. -/
opaque keyLengthReportedFirst : Bool

/-- FREE VALUE (log 12): whether an `Open` whose nonce has a wrong length and whose input is too short reports the nonce. Host
software only; no command of the core reads it. -/
opaque nonceReportedBeforeCiphertext : Bool

end Sys2Proof.Config
end

