-- ==== Sys2Proof/Syntax.lean ====
section
/-! DEFINITION. The eighteen commands, one constructor for each row of spec/opcode_table.json (R55). -/

namespace Sys2Proof

/-- A command: a decoded command word. Domain bytes and the byte `b` are bytes; round counts, offsets, rates and lengths
are the unsigned numbers of R56. The data-in stream belongs to the transaction, not to the word (R50, R53), and is held in
the machine's state. -/
inductive Instr where
  /-- LOADBYTES, `len(src) = LEN` (R70). -/
  | loadBytes (len : Nat)
  /-- STOREBYTES (R71). -/
  | storeBytes
  /-- XORSTATEBYTES, `len(in) = LEN` (R72). -/
  | xorStateBytes (len : Nat)
  /-- XORBYTEAT, `b = A`, `offset = B` (R73). -/
  | xorByteAt (b : Byte) (offset : Nat)
  /-- XOREXTRACT, `n = LEN` (R74). -/
  | xorExtract (n : Nat)
  /-- PERMUTE, `r = A` (R88). -/
  | permute (r : Nat)
  /-- DOWN, `cd = A`, `len(block) = LEN` (R106). -/
  | down (cd : Byte) (len : Nat)
  /-- UP, `cu = A`, `outLen = LEN` (R107). -/
  | up (cu : Byte) (outLen : Nat)
  /-- ABSORBANY, `cdFirst = A`, `rate = B`, `len(x) = LEN` (R108). -/
  | absorbAny (cdFirst : Byte) (rate : Nat) (len : Nat)
  /-- SQUEEZEANY, `cuFirst = A`, `outLen = LEN` (R109). -/
  | squeezeAny (cuFirst : Byte) (outLen : Nat)
  /-- INSTANTIATE, `len(id) = B`, `len(key) = C`, `len(counter) = LEN` (R120). -/
  | instantiate (idLen : Nat) (keyLen : Nat) (counterLen : Nat)
  /-- ABSORB, `len(x) = LEN` (R121). -/
  | absorb (len : Nat)
  /-- ABSORBBLOCK, `cd = A`, `len(buf) = LEN` (R124). -/
  | absorbBlock (cd : Byte) (len : Nat)
  /-- ENCRYPT, `len(pt) = LEN` (R125). -/
  | encrypt (len : Nat)
  /-- DECRYPT, `len(ct) = LEN` (R126). -/
  | decrypt (len : Nat)
  /-- SQUEEZE, `n = LEN` (R122). -/
  | squeeze (n : Nat)
  /-- SQUEEZEKEY, `n = LEN` (R123). -/
  | squeezeKey (n : Nat)
  /-- RATCHET (R127). -/
  | ratchet
  deriving DecidableEq, Repr

/-- The command's mnemonic, as the opcode table spells it (R55). -/
def Instr.mnemonic : Instr → String
  | .loadBytes _ => "LOADBYTES"
  | .storeBytes => "STOREBYTES"
  | .xorStateBytes _ => "XORSTATEBYTES"
  | .xorByteAt _ _ => "XORBYTEAT"
  | .xorExtract _ => "XOREXTRACT"
  | .permute _ => "PERMUTE"
  | .down _ _ => "DOWN"
  | .up _ _ => "UP"
  | .absorbAny _ _ _ => "ABSORBANY"
  | .squeezeAny _ _ => "SQUEEZEANY"
  | .instantiate _ _ _ => "INSTANTIATE"
  | .absorb _ => "ABSORB"
  | .absorbBlock _ _ => "ABSORBBLOCK"
  | .encrypt _ => "ENCRYPT"
  | .decrypt _ => "DECRYPT"
  | .squeeze _ => "SQUEEZE"
  | .squeezeKey _ => "SQUEEZEKEY"
  | .ratchet => "RATCHET"

/-- The three access tiers (30_encoding.md section 3). -/
inductive Tier where
  /-- Codec and permutation: the lanes only. -/
  | codec
  /-- The Cyclist's primitives with explicit domain bytes and rate. -/
  | primitive
  /-- The Cyclist library surface and the block absorber. -/
  | cyclist
  deriving DecidableEq, Repr

/-- The tier a command belongs to (30_encoding.md section 3). -/
def Instr.tier : Instr → Tier
  | .loadBytes _ => .codec
  | .storeBytes => .codec
  | .xorStateBytes _ => .codec
  | .xorByteAt _ _ => .codec
  | .xorExtract _ => .codec
  | .permute _ => .codec
  | .down _ _ => .primitive
  | .up _ _ => .primitive
  | .absorbAny _ _ _ => .primitive
  | .squeezeAny _ _ => .primitive
  | .instantiate _ _ _ => .cyclist
  | .absorb _ => .cyclist
  | .absorbBlock _ _ => .cyclist
  | .encrypt _ => .cyclist
  | .decrypt _ => .cyclist
  | .squeeze _ => .cyclist
  | .squeezeKey _ => .cyclist
  | .ratchet => .cyclist

end Sys2Proof
end

