-- ==== Sys2Proof/WellFormed.lean ====
section
/-! DEFINITION. Which commands a command word can spell: every number fits its field (R51, R56). -/

namespace Sys2Proof

/-- The number fits one of the byte-wide fields `A`, `B`, `C`: `0 .. 255` (R56). -/
def fitsByte (n : Nat) : Bool := n < 2 ^ 8

/-- The number fits the field `LEN`: `0 .. 2^32 - 1` (R56, D11). -/
def fitsLen (n : Nat) : Bool := n < 2 ^ 32

/-- A command is well formed when some command word spells it. Lengths and counts above what a command's own rule admits
are well formed: that rule rejects them, not the decoder (R56). -/
def Instr.wf : Instr → Bool
  | .loadBytes len => fitsLen len
  | .storeBytes => true
  | .xorStateBytes len => fitsLen len
  | .xorByteAt _ offset => fitsByte offset
  | .xorExtract n => fitsLen n
  | .permute r => fitsByte r
  | .down _ len => fitsLen len
  | .up _ outLen => fitsLen outLen
  | .absorbAny _ rate len => fitsByte rate && fitsLen len
  | .squeezeAny _ outLen => fitsLen outLen
  | .instantiate idLen keyLen counterLen => fitsByte idLen && fitsByte keyLen && fitsLen counterLen
  | .absorb len => fitsLen len
  | .absorbBlock _ len => fitsLen len
  | .encrypt len => fitsLen len
  | .decrypt len => fitsLen len
  | .squeeze n => fitsLen n
  | .squeezeKey n => fitsLen n
  | .ratchet => true

end Sys2Proof
end

