-- ==== Sys2Proof/Decode.lean ====
section
/-! DEFINITION. Command words to commands and back: the fields of R51, the formats of R52, the opcodes and the match/mask
rows of R55, illegal words (R57). -/

namespace Sys2Proof

/-- The five fields of a command word (R51). -/
structure Fields where
  /-- `OPC`, bits 63:56. -/
  opc : BitVec 8
  /-- `A`, bits 55:48. -/
  a : BitVec 8
  /-- `B`, bits 47:40. -/
  b : BitVec 8
  /-- `C`, bits 39:32. -/
  c : BitVec 8
  /-- `LEN`, bits 31:0. -/
  len : BitVec 32
  deriving DecidableEq, Repr

/-- Why a word is illegal (R57). Both are answered with the one status IllegalCommand (R174). -/
inductive DecodeReject where
  /-- `OPC` is none of the eighteen opcodes. -/
  | unknownOpcode
  /-- `OPC` is listed, but a field its format does not use is not zero. -/
  | unusedFieldNotZero
  deriving DecidableEq, Repr

/-- The fields of a word (R51). -/
def fieldsOf (cw : CommandWord) : Fields :=
  { opc := cw.extractLsb' 56 8
    a := cw.extractLsb' 48 8
    b := cw.extractLsb' 40 8
    c := cw.extractLsb' 32 8
    len := cw.extractLsb' 0 32 }

/-- `CW = {OPC, A, B, C, LEN}` (R51). -/
def Fields.word (f : Fields) : CommandWord := f.opc ++ f.a ++ f.b ++ f.c ++ f.len

/-- The command, if the fields its format does not use are zero (R52, R57). -/
def requireZero (unusedZero : Bool) (i : Instr) : Except DecodeReject Instr :=
  if unusedZero then .ok i else .error .unusedFieldNotZero

/-- Format N: no field is used (R52). -/
def Fields.formatN (f : Fields) (i : Instr) : Except DecodeReject Instr :=
  requireZero (f.a == 0 && f.b == 0 && f.c == 0 && f.len == 0) i

/-- Formats D and O without `A`: only `LEN` is used (R52). -/
def Fields.formatL (f : Fields) (mk : Nat → Instr) : Except DecodeReject Instr :=
  requireZero (f.a == 0 && f.b == 0 && f.c == 0) (mk f.len.toNat)

/-- Format I as XORBYTEAT uses it: `A` and `B` (R52). -/
def Fields.formatAB (f : Fields) (mk : Byte → Nat → Instr) : Except DecodeReject Instr :=
  requireZero (f.c == 0 && f.len == 0) (mk f.a f.b.toNat)

/-- Format I as PERMUTE uses it: `A`; `B` must be 0 (R52). -/
def Fields.formatA (f : Fields) (mk : Nat → Instr) : Except DecodeReject Instr :=
  requireZero (f.b == 0 && f.c == 0 && f.len == 0) (mk f.a.toNat)

/-- Formats AD and O with `A`: `A` and `LEN` (R52). -/
def Fields.formatAL (f : Fields) (mk : Byte → Nat → Instr) : Except DecodeReject Instr :=
  requireZero (f.b == 0 && f.c == 0) (mk f.a f.len.toNat)

/-- Format AD as ABSORBANY uses it: `A`, `B` and `LEN` (R52). -/
def Fields.formatABL (f : Fields) (mk : Byte → Nat → Nat → Instr) : Except DecodeReject Instr :=
  requireZero (f.c == 0) (mk f.a f.b.toNat f.len.toNat)

/-- Format K: `B`, `C` and `LEN` (R52). -/
def Fields.formatK (f : Fields) (mk : Nat → Nat → Nat → Instr) : Except DecodeReject Instr :=
  requireZero (f.a == 0) (mk f.b.toNat f.c.toNat f.len.toNat)

/-- The opcode map (R55): every word is one of the eighteen commands or illegal (R57). -/
def Fields.decode (f : Fields) : Except DecodeReject Instr :=
  match f.opc with
  | 0x01#8 => f.formatL .loadBytes
  | 0x02#8 => f.formatN .storeBytes
  | 0x03#8 => f.formatL .xorStateBytes
  | 0x04#8 => f.formatAB .xorByteAt
  | 0x05#8 => f.formatL .xorExtract
  | 0x10#8 => f.formatA .permute
  | 0x20#8 => f.formatAL .down
  | 0x21#8 => f.formatAL .up
  | 0x22#8 => f.formatABL .absorbAny
  | 0x23#8 => f.formatAL .squeezeAny
  | 0x30#8 => f.formatK .instantiate
  | 0x31#8 => f.formatL .absorb
  | 0x32#8 => f.formatAL .absorbBlock
  | 0x33#8 => f.formatL .encrypt
  | 0x34#8 => f.formatL .decrypt
  | 0x35#8 => f.formatL .squeeze
  | 0x36#8 => f.formatL .squeezeKey
  | 0x37#8 => f.formatN .ratchet
  | _ => .error .unknownOpcode

/-- Decoding, total on the 2^64 words. -/
def decode (cw : CommandWord) : Except DecodeReject Instr := (fieldsOf cw).decode

/-- The fields that spell a command (R51, R55); a field the format does not use is zero (R52). -/
def Instr.fields : Instr → Fields
  | .loadBytes len => ⟨0x01#8, 0, 0, 0, BitVec.ofNat 32 len⟩
  | .storeBytes => ⟨0x02#8, 0, 0, 0, 0⟩
  | .xorStateBytes len => ⟨0x03#8, 0, 0, 0, BitVec.ofNat 32 len⟩
  | .xorByteAt b offset => ⟨0x04#8, b, BitVec.ofNat 8 offset, 0, 0⟩
  | .xorExtract n => ⟨0x05#8, 0, 0, 0, BitVec.ofNat 32 n⟩
  | .permute r => ⟨0x10#8, BitVec.ofNat 8 r, 0, 0, 0⟩
  | .down cd len => ⟨0x20#8, cd, 0, 0, BitVec.ofNat 32 len⟩
  | .up cu outLen => ⟨0x21#8, cu, 0, 0, BitVec.ofNat 32 outLen⟩
  | .absorbAny cdFirst rate len => ⟨0x22#8, cdFirst, BitVec.ofNat 8 rate, 0, BitVec.ofNat 32 len⟩
  | .squeezeAny cuFirst outLen => ⟨0x23#8, cuFirst, 0, 0, BitVec.ofNat 32 outLen⟩
  | .instantiate idLen keyLen counterLen =>
    ⟨0x30#8, 0, BitVec.ofNat 8 idLen, BitVec.ofNat 8 keyLen, BitVec.ofNat 32 counterLen⟩
  | .absorb len => ⟨0x31#8, 0, 0, 0, BitVec.ofNat 32 len⟩
  | .absorbBlock cd len => ⟨0x32#8, cd, 0, 0, BitVec.ofNat 32 len⟩
  | .encrypt len => ⟨0x33#8, 0, 0, 0, BitVec.ofNat 32 len⟩
  | .decrypt len => ⟨0x34#8, 0, 0, 0, BitVec.ofNat 32 len⟩
  | .squeeze n => ⟨0x35#8, 0, 0, 0, BitVec.ofNat 32 n⟩
  | .squeezeKey n => ⟨0x36#8, 0, 0, 0, BitVec.ofNat 32 n⟩
  | .ratchet => ⟨0x37#8, 0, 0, 0, 0⟩

/-- The word of a well-formed command. -/
def encode (i : Instr) : CommandWord := i.fields.word

/-- A row of the match/mask table under R55. -/
structure OpcodeRow where
  /-- The mnemonic. -/
  mnemonic : String
  /-- The fixed bits' values. -/
  pattern : CommandWord
  /-- Which bits are fixed. -/
  mask : CommandWord
  deriving DecidableEq, Repr

/-- `(CW AND mask) = match` (R55). -/
def OpcodeRow.selects (row : OpcodeRow) (cw : CommandWord) : Bool := cw &&& row.mask == row.pattern

/-- The match/mask table, written out from R55. The decoder is written from the opcode and format tables instead; that the
two agree is an obligation. -/
def opcodeRows : List OpcodeRow :=
  [⟨"LOADBYTES", 0x0100000000000000#64, 0xFFFFFFFF00000000#64⟩,
   ⟨"STOREBYTES", 0x0200000000000000#64, 0xFFFFFFFFFFFFFFFF#64⟩,
   ⟨"XORSTATEBYTES", 0x0300000000000000#64, 0xFFFFFFFF00000000#64⟩,
   ⟨"XORBYTEAT", 0x0400000000000000#64, 0xFF0000FFFFFFFFFF#64⟩,
   ⟨"XOREXTRACT", 0x0500000000000000#64, 0xFFFFFFFF00000000#64⟩,
   ⟨"PERMUTE", 0x1000000000000000#64, 0xFF00FFFFFFFFFFFF#64⟩,
   ⟨"DOWN", 0x2000000000000000#64, 0xFF00FFFF00000000#64⟩,
   ⟨"UP", 0x2100000000000000#64, 0xFF00FFFF00000000#64⟩,
   ⟨"ABSORBANY", 0x2200000000000000#64, 0xFF0000FF00000000#64⟩] ++
  [⟨"SQUEEZEANY", 0x2300000000000000#64, 0xFF00FFFF00000000#64⟩,
   ⟨"INSTANTIATE", 0x3000000000000000#64, 0xFFFF000000000000#64⟩,
   ⟨"ABSORB", 0x3100000000000000#64, 0xFFFFFFFF00000000#64⟩,
   ⟨"ABSORBBLOCK", 0x3200000000000000#64, 0xFF00FFFF00000000#64⟩,
   ⟨"ENCRYPT", 0x3300000000000000#64, 0xFFFFFFFF00000000#64⟩,
   ⟨"DECRYPT", 0x3400000000000000#64, 0xFFFFFFFF00000000#64⟩,
   ⟨"SQUEEZE", 0x3500000000000000#64, 0xFFFFFFFF00000000#64⟩,
   ⟨"SQUEEZEKEY", 0x3600000000000000#64, 0xFFFFFFFF00000000#64⟩,
   ⟨"RATCHET", 0x3700000000000000#64, 0xFFFFFFFFFFFFFFFF#64⟩]

/-- The command word the opcode table's numbering gives: bit 0 of `w` is bit 0 of the 64-bit word, and the bits above
`nbits` are zero. -/
def tableWord (nbits w : Nat) : CommandWord := BitVec.ofNat 64 (w % 2 ^ nbits)

/-- What the decoder reads from an instruction whose bits are `w`; an instruction of more than 64 bits does not exist
(R51). -/
def decodeTableWord (nbits w : Nat) : Option Instr :=
  if nbits ≤ 64 then (decode (tableWord nbits w)).toOption else none

end Sys2Proof
end

