-- ==== Sys2Proof/Machine/State.lean ====
section
/-! DEFINITION. The state of the core and of its command and response channel (10_state.md), its reset value (R200), the
status codes (R171) and the ways a step can stop. -/

namespace Sys2Proof.Machine

/-- The lane file `S[0] .. S[11]` (R10). -/
abbrev Lanes := Vector Lane 12

/-- `MODE` (R13): an operating mode of the Cyclist, no privilege level (R178). -/
inductive Mode where
  /-- Stored as 0. -/
  | hash
  /-- Stored as 1. -/
  | keyed
  deriving DecidableEq, Repr

/-- `PHASE`, the last of Up and Down applied (R14). -/
inductive Phase where
  /-- Stored as 0. -/
  | up
  /-- Stored as 1. -/
  | down
  deriving DecidableEq, Repr

/-- `RABS`: "16 or 44" (R15; the type has the two values only, log 9). -/
inductive AbsorbRate where
  /-- 16 bytes. -/
  | sixteen
  /-- 44 bytes, `XoodyakRkin`. -/
  | fortyFour
  deriving DecidableEq, Repr

/-- `RSQZ`: "16 or 24" (R15; the type has the two values only, log 9). -/
inductive SqueezeRate where
  /-- 16 bytes. -/
  | sixteen
  /-- 24 bytes, `XoodyakRkout`. -/
  | twentyFour
  deriving DecidableEq, Repr

/-- The Cyclist instance: the state and its four control items (10_state.md section 2). This is the whole architectural
state of the core. -/
structure Cyclist where
  /-- The twelve lanes (R10). -/
  lanes : Lanes
  /-- `MODE` (R13). -/
  mode : Mode
  /-- `PHASE` (R14). -/
  phase : Phase
  /-- `RABS` (R15). -/
  rabs : AbsorbRate
  /-- `RSQZ` (R15). -/
  rsqz : SqueezeRate
  deriving DecidableEq, Repr

/-- The error kinds, status codes 1 to 10 in order (R171). -/
inductive ErrorKind where
  /-- 1: PERMUTE with more than 12 rounds. -/
  | invalidRounds
  /-- 2: LOADBYTES or XORSTATEBYTES of another length than 48. -/
  | invalidStateLength
  /-- 3: host only, AEAD key of the wrong length. -/
  | invalidKeyLength
  /-- 4: host only, AEAD nonce of the wrong length. -/
  | invalidNonceLength
  /-- 5: host only, AEAD ciphertext too short to hold a tag. -/
  | invalidCiphertextLength
  /-- 6: INSTANTIATE with `len(key) + len(id) >= 44`. -/
  | keyTooLarge
  /-- 7: SQUEEZEKEY or RATCHET in Hash mode. -/
  | modeViolation
  /-- 8: host only, tag mismatch. -/
  | authenticationFailed
  /-- 9: an operand outside its domain. -/
  | invalidOperand
  /-- 10: a word that is no command. -/
  | illegalCommand
  deriving DecidableEq, Repr

/-- The status of a response (R171); codes 11 to 255 are never produced and have no value here (U24). -/
inductive Status where
  /-- 0: the command ran to its end. -/
  | ok
  /-- The command was rejected. -/
  | error (e : ErrorKind)
  deriving DecidableEq, Repr

/-- The response to a command (R54); its `DLEN` is computed from `dout`. -/
structure Response where
  /-- The status. -/
  status : Status
  /-- The data-out stream, `dout[0]` first (R38). -/
  dout : List Byte
  deriving DecidableEq, Repr

/-- `BUSY` (R22). A step executes an accepted command whole, so whenever `BUSY` is true between steps there is a response
to deliver, and the two are held together. -/
inductive Busy where
  /-- `BUSY = false`. -/
  | no
  /-- `BUSY = true`: a command was accepted, its response is not yet delivered. -/
  | yes (response : Response)
  deriving DecidableEq, Repr

/-- What the host does at the core's command interface, one event at a time (R50, R201; log 5, log 6). -/
inductive HostInput where
  /-- Present a command: the word and its data-in stream (R50). -/
  | command (cw : CommandWord) (din : List Byte)
  /-- Apply reset (R201). -/
  | reset
  /-- Present nothing for one step. -/
  | nothing
  deriving DecidableEq, Repr

/-- The state of the core, and the two ends of its channel to the host. -/
structure State where
  /-- The Cyclist instance (10_state.md section 2). -/
  cyclist : Cyclist
  /-- `BUSY`, with the response it guards (R22, R54). -/
  busy : Busy
  /-- `din`: the data-in stream of the command being executed (R38). -/
  din : List Byte
  /-- Command channel: what the host will do, in order. The model's own field (log 5). -/
  inputs : List HostInput
  /-- Response channel: what the host has been handed, in order. The model's own field (log 5). -/
  received : List Response
  deriving DecidableEq, Repr

/-- The instance a Hash-mode INSTANTIATE makes, which is also the instance after reset (R120, R200). -/
def Cyclist.fresh : Cyclist :=
  { lanes := #v[0, 0, 0, 0, 0, 0, 0, 0, 0, 0, 0, 0]
    mode := .hash
    phase := .up
    rabs := .sixteen
    rsqz := .sixteen }

/-- The machine after reset (R200): a fresh instance, idle. The host has presented nothing and been handed nothing
(log 5). -/
def State.reset : State :=
  { cyclist := .fresh
    busy := .no
    din := []
    inputs := []
    received := [] }

/-- Why the machine stops. -/
inductive Fault where
  /-- Raised by every command, and by the answer to an illegal word, when the data-in stream has not the length the command
  word fixes (R53). The spec puts such a transaction outside itself and asks a model to be stuck (D24, U11). Safe: nothing
  is claimed of such a transaction (log 3). -/
  | malformedTransaction
  deriving DecidableEq, Repr

/-- Why an instruction is refused. -/
inductive Refusal where
  /-- Raised by an arm of `exec` whose instruction has no meaning in the model. No arm raises it. Safe: nothing is claimed of
  the instruction. -/
  | notModelled (mnemonic : String)
  deriving DecidableEq, Repr

/-- What a step or a command answers. -/
abbrev Outcome := Host.Outcome State Fault Refusal

end Sys2Proof.Machine
end

