-- ==== Sys2Proof/Machine/Ops.lean ====
section
/-! DEFINITION. The operations every command shares: lanes and their byte view (R11, R31 to R33), the transaction with its
completion, its rejection and the delivery of its response (R50, R54, R172, R176), acceptance (R22) and reset (R201). -/

namespace Sys2Proof.Machine

/-- `rotl32(v, n)` for `0 <= n < 32` (00_scope.md section 5). -/
def rotl32 (v : Lane) (n : Nat) : Lane := (v <<< n) ||| (v >>> (32 - n))

/-- `A[y][x]`, another name of `S[4y + x]` (R11). -/
def Lanes.at (s : Lanes) (y : Fin 3) (x : Fin 4) : Lane := s[4 * y.val + x.val]

/-- The lane file whose `A[y][x]` is `f y x` (R11): a simultaneous assignment to all twelve lanes. -/
def Lanes.ofPlanes (f : Fin 3 → Fin 4 → Lane) : Lanes :=
  #v[f 0 0, f 0 1, f 0 2, f 0 3, f 1 0, f 1 1, f 1 2, f 1 3, f 2 0, f 2 1, f 2 2, f 2 3]

/-- All lanes zero. -/
def Lanes.zero : Lanes := #v[0, 0, 0, 0, 0, 0, 0, 0, 0, 0, 0, 0]

/-- State byte `SB[k]`: bits `8*(k mod 4)+7 : 8*(k mod 4)` of `S[k div 4]`, for `k < 48` (R31). No byte outside
`0 .. 47` exists; the commands reject every access to one (log 14). -/
def Lanes.byte (s : Lanes) (k : Nat) : Byte := (s.getD (k / 4) 0).extractLsb' (8 * (k % 4)) 8

/-- `MemRead(k, n)`: `SB[k] || .. || SB[k+n-1]` (00_scope.md section 5). -/
def Lanes.memRead (s : Lanes) (k n : Nat) : List Byte := (List.range n).map fun j => s.byte (k + j)

/-- The lane made of bytes `4i .. 4i+3` of a string, the first the least significant (R31). MODEL'S CHOICE: a byte the string
has not is 0; no command asks for one (log 14). -/
def leLane (b : List Byte) (i : Nat) : Lane :=
  b.getD (4 * i + 3) 0 ++ b.getD (4 * i + 2) 0 ++ b.getD (4 * i + 1) 0 ++ b.getD (4 * i) 0

/-- `loadBytes(src[48])` (R70); the commands give it 48 bytes (log 14). -/
def Lanes.ofBytes (src : List Byte) : Lanes := Vector.ofFn fun i => leLane src i.val

/-- `storeBytes(State)` (R71). -/
def Lanes.toBytes (s : Lanes) : List Byte := s.memRead 0 Config.stateBytes

/-- `xorStateBytes(State, in[48])` (R72); bytes that a shorter string has not are taken as 0 (log 14). -/
def Lanes.xorBytes (s : Lanes) (b : List Byte) : Lanes := Vector.ofFn fun i => s[i] ^^^ leLane b i.val

/-- `xorByteAt(State, b, offset)` for `offset < 48` (R73). -/
def Lanes.xorByteAt (s : Lanes) (b : Byte) (offset : Nat) : Lanes :=
  s.setIfInBounds (offset / 4) (s.getD (offset / 4) 0 ^^^ (b.setWidth 32 <<< (8 * (offset % 4))))

/-- `xorExtractBytes(State, in[0..n], n)` with `n = len(in) <= 48` (R74). -/
def Lanes.xorExtract (s : Lanes) (b : List Byte) : List Byte :=
  List.zipWith (fun x y => x ^^^ y) b (s.memRead 0 b.length)

/-- The number of a status code (R171). -/
def ErrorKind.code : ErrorKind → BitVec 8
  | .invalidRounds => 1
  | .invalidStateLength => 2
  | .invalidKeyLength => 3
  | .invalidNonceLength => 4
  | .invalidCiphertextLength => 5
  | .keyTooLarge => 6
  | .modeViolation => 7
  | .authenticationFailed => 8
  | .invalidOperand => 9
  | .illegalCommand => 10

/-- Whether the core itself raises the kind (R171, R180). -/
def ErrorKind.raisedByCore : ErrorKind → Bool
  | .invalidRounds => true
  | .invalidStateLength => true
  | .invalidKeyLength => false
  | .invalidNonceLength => false
  | .invalidCiphertextLength => false
  | .keyTooLarge => true
  | .modeViolation => true
  | .authenticationFailed => false
  | .invalidOperand => true
  | .illegalCommand => true

/-- The 8-bit `status` of a response (R54, R171). -/
def Status.code : Status → BitVec 8
  | .ok => 0
  | .error e => e.code

/-- `DLEN`, the length of `dout` as the core reports it: a 32-bit count (R54). -/
def Response.dlen (r : Response) : BitVec 32 := BitVec.ofNat 32 r.dout.length

/-- The stored bit of `MODE` (R13). -/
def Mode.bit : Mode → BitVec 1
  | .hash => 0
  | .keyed => 1

/-- The stored bit of `PHASE` (R14). -/
def Phase.bit : Phase → BitVec 1
  | .up => 0
  | .down => 1

/-- Whether `BUSY` is true (R22). -/
def State.isBusy (s : State) : Bool :=
  match s.busy with
  | .no => false
  | .yes _ => true

/-- The response waiting to be delivered, if there is one (R54). -/
def State.pending (s : State) : Option Response :=
  match s.busy with
  | .no => none
  | .yes r => some r

/-- A command that ran to its end: the instance is the new one, `din` is consumed, the response is OK with `dout` (R54). -/
def complete (c : Cyclist) (dout : List Byte) (s : State) : State :=
  { s with cyclist := c, din := [], busy := .yes ⟨.ok, dout⟩ }

/-- TAKING AN EXCEPTION: a rejected command changes no architectural state; its `din` is consumed and discarded, its
response is the error status with empty `dout` (R172). There is no trap entry and nothing is saved (R176, R177). -/
def reject (e : ErrorKind) (s : State) : State :=
  { s with din := [], busy := .yes ⟨.error e, []⟩ }

/-- THE RETURN FROM IT, and from every command: the response is delivered and `BUSY` falls (R22, R172, R176). An idle core
is left as it is. -/
def deliver (s : State) : State :=
  match s.busy with
  | .no => s
  | .yes r => { s with busy := .no, received := s.received ++ [r] }

/-- How a command ends: completed with the new instance and `dout`, or rejected with the error raised (R54, R172). -/
def conclude (r : Except ErrorKind (Cyclist × List Byte)) (s : State) : State :=
  match r with
  | .ok (c, dout) => complete c dout s
  | .error e => reject e s

/-- One command transaction (R36, R50, R172): consume the `n` bytes of data in, then either complete with what `body` gives
or reject with the error it raises. `body` sees the instance as it was before the command, and nothing it computes stays
when it raises. -/
def transact (n : Nat) (body : List Byte → Cyclist → Except ErrorKind (Cyclist × List Byte)) (s : State) : Outcome :=
  if s.din.length = n then .next (conclude (body s.din s.cyclist) s)
  else .fault .malformedTransaction

/-- Accept a command: its data-in stream becomes the core's, and the event is taken off the command channel (R22, R50).
`BUSY` is true from here on; within the step that is not observable, and the command's end writes it (log 1). -/
def accept (din : List Byte) (rest : List HostInput) (s : State) : State := { s with din := din, inputs := rest }

/-- The answer to an illegal word: IllegalCommand, no `din`, no state change (R57, R53). -/
def rejectIllegal (s : State) : Outcome := transact 0 (fun _ _ => .error .illegalCommand) s

/-- Reset: every piece of the core's state takes its reset value and a running command is abandoned without a response; the
host keeps what it has been handed and goes on with what it still means to do (R200, R201; log 6). -/
def applyReset (rest : List HostInput) (s : State) : State :=
  { State.reset with inputs := rest, received := s.received }

end Sys2Proof.Machine
end

