-- ==== Sys2Proof/Machine/Operands.lean ====
section
/-! DEFINITION. Operand assembly: the length of the data-in stream (R53), the split of INSTANTIATE's (R58), and the chunks in
which the walking operations take their operands (R102, R103, R104). -/

namespace Sys2Proof.Machine

/-- `len(din)` of a command (R53): `LEN` bytes in formats D and AD, `C + B + LEN` in format K (computed without wrap, D11),
none in formats N, I and O. -/
def dinLength : Instr → Nat
  | .loadBytes len => len
  | .storeBytes => 0
  | .xorStateBytes len => len
  | .xorByteAt _ _ => 0
  | .xorExtract n => n
  | .permute _ => 0
  | .down _ len => len
  | .up _ _ => 0
  | .absorbAny _ _ len => len
  | .squeezeAny _ _ => 0
  | .instantiate idLen keyLen counterLen => keyLen + idLen + counterLen
  | .absorb len => len
  | .absorbBlock _ len => len
  | .encrypt len => len
  | .decrypt len => len
  | .squeeze _ => 0
  | .squeezeKey _ => 0
  | .ratchet => 0

/-- `len(din)` of a command word: fixed by the word alone; zero for an illegal word (R53). -/
def dinLengthOfWord (cw : CommandWord) : Nat :=
  match decode cw with
  | .ok i => dinLength i
  | .error _ => 0

/-- `key = din[0 .. C)` (R58). -/
def keyOf (keyLen : Nat) (din : List Byte) : List Byte := din.take keyLen

/-- `id = din[C .. C+B)` (R58). -/
def idOf (keyLen idLen : Nat) (din : List Byte) : List Byte := (din.drop keyLen).take idLen

/-- `counter = din[C+B .. C+B+LEN)` (R58). -/
def counterOf (keyLen idLen counterLen : Nat) (din : List Byte) : List Byte :=
  (din.drop (keyLen + idLen)).take counterLen

/-- Chunks of at most `rate` bytes, taken from the front, while any byte and any fuel is left. -/
def chunksFrom (rate : Nat) : Nat → List Byte → List (List Byte)
  | 0, _ => []
  | _ + 1, [] => []
  | fuel + 1, b :: bs => (b :: bs).take rate :: chunksFrom rate fuel ((b :: bs).drop rate)

/-- The chunks `x[off .. min(off + rate, n))` of a byte string, none for the empty string (R102, R104); `rate >= 1`, so
`len(x)` rounds of fuel are enough. -/
def chunks (rate : Nat) (x : List Byte) : List (List Byte) := chunksFrom rate x.length x

/-- The chunks AbsorbAny walks: "an empty input still performs exactly one Down" (R102). -/
def absorbChunks (rate : Nat) (x : List Byte) : List (List Byte) :=
  match x with
  | [] => [[]]
  | _ :: _ => chunks rate x

/-- The lengths of the chunks of an output of `n` bytes, `rate` bytes each and the rest in the last. -/
def lengthsFrom (rate : Nat) : Nat → Nat → List Nat
  | 0, _ => []
  | _ + 1, 0 => []
  | fuel + 1, n + 1 => min (n + 1) rate :: lengthsFrom rate fuel (n + 1 - min (n + 1) rate)

/-- The output lengths `min(outLen - len(Y), RSQZ)` of SqueezeAny's Ups, none for `outLen = 0` (R103). -/
def squeezeLengths (rate outLen : Nat) : List Nat := lengthsFrom rate outLen outLen

end Sys2Proof.Machine
end

