-- ==== Sys2Proof/Machine/Flags.lean ====
section
/-! DEFINITION. The control fields, the core's only flags (R13 to R17): what MODE decides, the two rates, and how the fields
change. There are no condition codes. -/

namespace Sys2Proof.Machine

/-- `RABS` as a number of bytes (R15). -/
def AbsorbRate.bytes : AbsorbRate → Nat
  | .sixteen => Config.hashAbsorbRate
  | .fortyFour => Config.rkin

/-- `RSQZ` as a number of bytes (R15). -/
def SqueezeRate.bytes : SqueezeRate → Nat
  | .sixteen => Config.hashSqueezeRate
  | .twentyFour => Config.rkout

/-- The absorb rate of a mode (R15, R16). -/
def Mode.absorbRate : Mode → AbsorbRate
  | .hash => .sixteen
  | .keyed => .fortyFour

/-- The squeeze rate of a mode (R15, R16). -/
def Mode.squeezeRate : Mode → SqueezeRate
  | .hash => .sixteen
  | .keyed => .twentyFour

/-- The domain byte as Down uses it: masked to its low bit in Hash mode, raw in Keyed mode (R100). -/
def Mode.maskCd (m : Mode) (cd : Byte) : Byte :=
  match m with
  | .hash => cd &&& 0x01#8
  | .keyed => cd

/-- The longest block, and the largest rate, the host may ask of a Down in this mode (R106, R108, D13). -/
def Mode.maxBlock : Mode → Nat
  | .hash => Config.hashMaxBlock
  | .keyed => Config.rkin

/-- `MODE <- Keyed; RABS <- 44; RSQZ <- 24` (R105). -/
def Cyclist.enterKeyed (c : Cyclist) : Cyclist := { c with mode := .keyed, rabs := .fortyFour, rsqz := .twentyFour }

end Sys2Proof.Machine
end

