-- ==== Sys2Proof/Machine/Permutation.lean ====
section
/-! DEFINITION. The permutation engine (41_permutation.md): round constants, the five steps of a round, `permute(r)`, and the
command PERMUTE. Lane indices are modulo 4 and plane indices modulo 3, by the arithmetic of `Fin`. -/

namespace Sys2Proof.Machine

/-- The round-constant table (R80). -/
def roundConstants : List Lane :=
  [0x00000058#32, 0x00000038#32, 0x000003C0#32, 0x000000D0#32, 0x00000120#32, 0x00000014#32,
   0x00000060#32, 0x0000002C#32, 0x00000380#32, 0x000000F0#32, 0x000001A0#32, 0x00000012#32]

/-- `RC[i]`, `0 <= i <= 11` (R80). MODEL'S CHOICE: for an index of 12 or more, which no command uses and to which the spec gives
no constant, it is 0 (log 14). -/
def roundConstant (i : Nat) : Lane := roundConstants.getD i 0

/-- Theta's `P[x]` (R81). -/
def columnParity (s : Lanes) (x : Fin 4) : Lane := s.at 0 x ^^^ s.at 1 x ^^^ s.at 2 x

/-- Theta's `E[x]` (R81). -/
def thetaEffect (s : Lanes) (x : Fin 4) : Lane :=
  rotl32 (columnParity s (x - 1)) 5 ^^^ rotl32 (columnParity s (x - 1)) 14

/-- Theta (R81). -/
def theta (s : Lanes) : Lanes := Lanes.ofPlanes fun y x => s.at y x ^^^ thetaEffect s x

/-- Rho-west (R82). -/
def rhoWest (s : Lanes) : Lanes :=
  Lanes.ofPlanes fun y x =>
    match y with
    | 0 => s.at 0 x
    | 1 => s.at 1 (x - 1)
    | 2 => rotl32 (s.at 2 x) 11

/-- Iota with round index `i` (R83). -/
def iota (i : Nat) (s : Lanes) : Lanes := s.set 0 (s[0] ^^^ roundConstant i)

/-- Chi (R84). -/
def chi (s : Lanes) : Lanes :=
  Lanes.ofPlanes fun y x => s.at y x ^^^ (~~~ s.at (y + 1) x &&& s.at (y + 2) x)

/-- Rho-east (R85). -/
def rhoEast (s : Lanes) : Lanes :=
  Lanes.ofPlanes fun y x =>
    match y with
    | 0 => s.at 0 x
    | 1 => rotl32 (s.at 1 x) 1
    | 2 => rotl32 (s.at 2 (x - 2)) 8

/-- Round with index `i`: the five steps in their fixed order (R86, 90_conflicts.md C1). -/
def xoodooRound (i : Nat) (s : Lanes) : Lanes := rhoEast (chi (iota i (rhoWest (theta s))))

/-- `permute(r)`, `0 <= r <= 12`: rounds with indices `12 - r .. 11`, in that order (R87). -/
def permute : Nat → Lanes → Lanes
  | 0, s => s
  | r + 1, s => permute r (xoodooRound (Config.maxRounds - (r + 1)) s)

/-- PERMUTE (R88). -/
def execPermute (r : Nat) (s : State) : Outcome :=
  transact 0 (fun _ c =>
    if r > Config.maxRounds then .error .invalidRounds
    else .ok ({ c with lanes := permute r c.lanes }, [])) s

end Sys2Proof.Machine
end

