-- ==== Sys2Proof/Machine/Codec.lean ====
section
/-! DEFINITION. The state codec commands (40_codec.md): they work on the lanes only (R75). -/

namespace Sys2Proof.Machine

/-- LOADBYTES (R70). -/
def execLoadBytes (len : Nat) (s : State) : Outcome :=
  transact len (fun src c =>
    if len ≠ Config.stateBytes then .error .invalidStateLength
    else .ok ({ c with lanes := Lanes.ofBytes src }, [])) s

/-- STOREBYTES (R71). -/
def execStoreBytes (s : State) : Outcome := transact 0 (fun _ c => .ok (c, c.lanes.toBytes)) s

/-- XORSTATEBYTES (R72). -/
def execXorStateBytes (len : Nat) (s : State) : Outcome :=
  transact len (fun b c =>
    if len ≠ Config.stateBytes then .error .invalidStateLength
    else .ok ({ c with lanes := c.lanes.xorBytes b }, [])) s

/-- XORBYTEAT (R73). -/
def execXorByteAt (b : Byte) (offset : Nat) (s : State) : Outcome :=
  transact 0 (fun _ c =>
    if offset ≥ Config.stateBytes then .error .invalidOperand
    else .ok ({ c with lanes := c.lanes.xorByteAt b offset }, [])) s

/-- XOREXTRACT (R74). -/
def execXorExtract (n : Nat) (s : State) : Outcome :=
  transact n (fun b c =>
    if n > Config.stateBytes then .error .invalidOperand
    else .ok (c, c.lanes.xorExtract b)) s

end Sys2Proof.Machine
end

