-- ==== Sys2Proof/Machine/Primitives.lean ====
section
/-! DEFINITION. The Cyclist duplex primitives (42_cyclist_primitives.md): the internal operations Down, Up, AbsorbAny,
SqueezeAny, Crypt and AbsorbKey, and the commands DOWN, UP, ABSORBANY and SQUEEZEANY. -/

namespace Sys2Proof.Machine

/-- Down's buffer before the domain byte: the block, the padding byte 0x01, zeros up to 48 bytes; `len(block) <= 47`
(R100, log 14). -/
def paddedBlock (block : List Byte) : List Byte :=
  block ++ 0x01#8 :: List.replicate (Config.hashMaxBlock - block.length) 0x00#8

/-- `BUF`: the padded block with the domain byte XORed into byte 47 (R100). -/
def downBuffer (m : Mode) (block : List Byte) (cd : Byte) : List Byte :=
  (paddedBlock block).set 47 ((paddedBlock block).getD 47 0 ^^^ m.maskCd cd)

/-- Down(block, cd) (R100). -/
def Cyclist.down (block : List Byte) (cd : Byte) (c : Cyclist) : Cyclist :=
  { c with lanes := c.lanes.xorBytes (downBuffer c.mode block cd), phase := .down }

/-- The lanes Up permutes: in Keyed mode `cu` is first XORed into byte 47 (R101). -/
def Cyclist.beforeUp (cu : Byte) (c : Cyclist) : Lanes :=
  match c.mode with
  | .hash => c.lanes
  | .keyed => c.lanes.xorByteAt cu 47

/-- Up(cu, outLen), the instance afterwards (R101). -/
def Cyclist.up (cu : Byte) (c : Cyclist) : Cyclist :=
  { c with lanes := permute Config.maxRounds (c.beforeUp cu), phase := .up }

/-- What Up returns when `c` is the instance after its permutation: the first `outLen` bytes, none for 0 (R101). -/
def Cyclist.output (outLen : Nat) (c : Cyclist) : List Byte := c.lanes.memRead 0 outLen

/-- AbsorbAny's guard: `if PHASE != Up then Up(0x00, 0)` (R102, R124). -/
def Cyclist.guardUp (c : Cyclist) : Cyclist :=
  match c.phase with
  | .up => c
  | .down => c.up 0x00#8

/-- One iteration of AbsorbAny's loop: the guard, then the Down (R102). -/
def Cyclist.absorbOne (block : List Byte) (cd : Byte) (c : Cyclist) : Cyclist := c.guardUp.down block cd

/-- AbsorbAny's loop over the chunks; `cd` becomes `AbsorbCdMain` after the first (R102). -/
def Cyclist.absorbList : List (List Byte) → Byte → Cyclist → Cyclist
  | [], _, c => c
  | b :: bs, cd, c => Cyclist.absorbList bs Config.absorbCdMain (c.absorbOne b cd)

/-- AbsorbAny(x, rate, cdFirst), `rate >= 1` (R102). -/
def Cyclist.absorbAny (x : List Byte) (rate : Nat) (cdFirst : Byte) (c : Cyclist) : Cyclist :=
  Cyclist.absorbList (absorbChunks rate x) cdFirst c

/-- SqueezeAny's loop: `Down(empty, 0x00)`, then `Up(0x00, n)` for each further chunk (R103). -/
def Cyclist.squeezeMore : List Nat → Cyclist → Cyclist × List Byte
  | [], c => (c, [])
  | n :: ns, c =>
    let c' := (c.down [] 0x00#8).up 0x00#8
    let r := Cyclist.squeezeMore ns c'
    (r.1, c'.output n ++ r.2)

/-- SqueezeAny over the lengths of its chunks; nothing at all happens for none of them (R103, 90_conflicts.md C7). -/
def Cyclist.squeezeList : List Nat → Byte → Cyclist → Cyclist × List Byte
  | [], _, c => (c, [])
  | n :: ns, cuFirst, c =>
    let c' := c.up cuFirst
    let r := Cyclist.squeezeMore ns c'
    (r.1, c'.output n ++ r.2)

/-- SqueezeAny(outLen, cuFirst), `RSQZ` bytes per Up (R103). -/
def Cyclist.squeezeAny (outLen : Nat) (cuFirst : Byte) (c : Cyclist) : Cyclist × List Byte :=
  Cyclist.squeezeList (squeezeLengths c.rsqz.bytes outLen) cuFirst c

/-- The direction of Crypt (R104). -/
inductive Direction where
  /-- The message chunk, the plaintext, is absorbed. -/
  | encrypt
  /-- The output chunk, the recovered plaintext, is absorbed. -/
  | decrypt
  deriving DecidableEq, Repr

/-- Which of the message chunk and the output chunk Crypt absorbs: the plaintext (R104). -/
def Direction.plaintext (dir : Direction) (chunk out : List Byte) : List Byte :=
  match dir with
  | .encrypt => chunk
  | .decrypt => out

/-- Crypt's loop over the chunks of the message (R104). -/
def Cyclist.cryptList (dir : Direction) : List (List Byte) → Byte → Cyclist → Cyclist × List Byte
  | [], _, c => (c, [])
  | chunk :: rest, cu, c =>
    let c' := c.up cu
    let o := c'.lanes.xorExtract chunk
    let r := Cyclist.cryptList dir rest Config.cryptCuMain (c'.down (dir.plaintext chunk o) Config.cryptCd)
    (r.1, o ++ r.2)

/-- Crypt(msg, dir): 24 bytes a chunk in both modes (R104). -/
def Cyclist.crypt (dir : Direction) (msg : List Byte) (c : Cyclist) : Cyclist × List Byte :=
  Cyclist.cryptList dir (chunks Config.rkout msg) Config.cryptCuInit c

/-- The buffer AbsorbKey absorbs: `key || id || byte(len(id))` (R105). -/
def keyBuffer (key id : List Byte) : List Byte := key ++ id ++ [BitVec.ofNat 8 id.length]

/-- AbsorbKey's counter path: nothing for an empty counter, else one counter byte a Down (R105). -/
def Cyclist.absorbCounter (counter : List Byte) (c : Cyclist) : Cyclist :=
  match counter with
  | [] => c
  | _ :: _ => c.absorbAny counter Config.counterRate Config.absorbCdMain

/-- AbsorbKey(key, id, counter) (R105). Its test `len(key) + len(id) >= 44` is made by INSTANTIATE, its only caller, before
anything is written (R120, D17). -/
def Cyclist.absorbKey (key id counter : List Byte) (c : Cyclist) : Cyclist :=
  let k := c.enterKeyed
  (k.absorbAny (keyBuffer key id) k.rabs.bytes Config.absorbKeyCd).absorbCounter counter

/-- DOWN (R106). -/
def execDown (cd : Byte) (len : Nat) (s : State) : Outcome :=
  transact len (fun block c =>
    if len > c.mode.maxBlock then .error .invalidOperand
    else .ok (c.down block cd, [])) s

/-- UP (R107). -/
def execUp (cu : Byte) (outLen : Nat) (s : State) : Outcome :=
  transact 0 (fun _ c =>
    if outLen > Config.stateBytes then .error .invalidOperand
    else .ok (c.up cu, (c.up cu).output outLen)) s

/-- ABSORBANY (R108). -/
def execAbsorbAny (cdFirst : Byte) (rate : Nat) (len : Nat) (s : State) : Outcome :=
  transact len (fun x c =>
    if rate = 0 then .error .invalidOperand
    else if rate > c.mode.maxBlock then .error .invalidOperand
    else .ok (c.absorbAny x rate cdFirst, [])) s

/-- SQUEEZEANY (R109). -/
def execSqueezeAny (cuFirst : Byte) (outLen : Nat) (s : State) : Outcome :=
  transact 0 (fun _ c => .ok (c.squeezeAny outLen cuFirst)) s

end Sys2Proof.Machine
end

