-- ==== Sys2Proof/Machine/CyclistCommands.lean ====
section
/-! DEFINITION. The Cyclist commands (43_cyclist_commands.md): INSTANTIATE, ABSORB, ABSORBBLOCK, ENCRYPT, DECRYPT, SQUEEZE,
SQUEEZEKEY, RATCHET. -/

namespace Sys2Proof.Machine

/-- The instance INSTANTIATE makes: fresh in Hash mode, and with the key material absorbed if the key is not empty. An empty
key leaves `id` and `counter` unread (R120). -/
def instantiated (key id counter : List Byte) : Cyclist :=
  match key with
  | [] => Cyclist.fresh
  | _ :: _ => Cyclist.fresh.absorbKey key id counter

/-- INSTANTIATE (R120). -/
def execInstantiate (idLen keyLen counterLen : Nat) (s : State) : Outcome :=
  transact (keyLen + idLen + counterLen) (fun din _ =>
    if keyLen > 0 ∧ keyLen + idLen ≥ Config.rkin then .error .keyTooLarge
    else .ok (instantiated (keyOf keyLen din) (idOf keyLen idLen din) (counterOf keyLen idLen counterLen din), [])) s

/-- ABSORB (R121). -/
def execAbsorb (len : Nat) (s : State) : Outcome :=
  transact len (fun x c => .ok (c.absorbAny x c.rabs.bytes Config.absorbCdInit, [])) s

/-- ABSORBBLOCK (R124). -/
def execAbsorbBlock (cd : Byte) (len : Nat) (s : State) : Outcome :=
  transact len (fun buf c =>
    if len > c.rabs.bytes then .error .invalidOperand
    else .ok (c.absorbOne buf cd, [])) s

/-- ENCRYPT (R125); it runs in both modes (D12). -/
def execEncrypt (len : Nat) (s : State) : Outcome := transact len (fun pt c => .ok (c.crypt .encrypt pt)) s

/-- DECRYPT (R126); it runs in both modes (D12). -/
def execDecrypt (len : Nat) (s : State) : Outcome := transact len (fun ct c => .ok (c.crypt .decrypt ct)) s

/-- SQUEEZE (R122). -/
def execSqueeze (n : Nat) (s : State) : Outcome :=
  transact 0 (fun _ c => .ok (c.squeezeAny n Config.squeezeCuInit)) s

/-- SQUEEZEKEY (R123). -/
def execSqueezeKey (n : Nat) (s : State) : Outcome :=
  transact 0 (fun _ c =>
    match c.mode with
    | .hash => .error .modeViolation
    | .keyed => .ok (c.squeezeAny n Config.squeezeKeyCu)) s

/-- Ratchet on an instance: squeeze 16 bytes, absorb them back (R127, D26). -/
def Cyclist.ratchet (c : Cyclist) : Cyclist :=
  let r := c.squeezeAny Config.ratchetBytes Config.ratchetCu
  r.1.absorbAny r.2 r.1.rabs.bytes Config.absorbCdMain

/-- RATCHET (R127). -/
def execRatchet (s : State) : Outcome :=
  transact 0 (fun _ c =>
    match c.mode with
    | .hash => .error .modeViolation
    | .keyed => .ok (c.ratchet, [])) s

end Sys2Proof.Machine
end

