-- ==== Sys2Proof/Machine/Dispatch.lean ====
section
/-! DEFINITION. One arm per command: the meaning each constructor of Instr has. -/

namespace Sys2Proof.Machine

def exec (i : Instr) (s : State) : Host.Outcome State Fault Refusal :=
  match i with
  | .loadBytes len => Sys2Proof.Machine.execLoadBytes len s
  | .storeBytes => Sys2Proof.Machine.execStoreBytes s
  | .xorStateBytes len => Sys2Proof.Machine.execXorStateBytes len s
  | .xorByteAt b offset => Sys2Proof.Machine.execXorByteAt b offset s
  | .xorExtract n => Sys2Proof.Machine.execXorExtract n s
  | .permute r => Sys2Proof.Machine.execPermute r s
  | .down cd len => Sys2Proof.Machine.execDown cd len s
  | .up cu outLen => Sys2Proof.Machine.execUp cu outLen s
  | .absorbAny cdFirst rate len => Sys2Proof.Machine.execAbsorbAny cdFirst rate len s
  | .squeezeAny cuFirst outLen => Sys2Proof.Machine.execSqueezeAny cuFirst outLen s
  | .instantiate idLen keyLen counterLen => Sys2Proof.Machine.execInstantiate idLen keyLen counterLen s
  | .absorb len => Sys2Proof.Machine.execAbsorb len s
  | .absorbBlock cd len => Sys2Proof.Machine.execAbsorbBlock cd len s
  | .encrypt len => Sys2Proof.Machine.execEncrypt len s
  | .decrypt len => Sys2Proof.Machine.execDecrypt len s
  | .squeeze n => Sys2Proof.Machine.execSqueeze n s
  | .squeezeKey n => Sys2Proof.Machine.execSqueezeKey n s
  | .ratchet => Sys2Proof.Machine.execRatchet s

end Sys2Proof.Machine
end

