-- ==== Sys2Proof/Machine/Step.lean ====
section
/-! DEFINITION. One step of the core at its command interface (R22, R50, R201, R206). -/

namespace Sys2Proof.Machine

/-- Execute a presented command: decode its word, then run the command it spells, or answer IllegalCommand (R50, R57,
R174). -/
def runCommand (cw : CommandWord) (s : State) : Outcome :=
  match decode cw with
  | .ok i => exec i s
  | .error _ => rejectIllegal s

/-- One step. A reset takes effect whether or not a command is running (R201). Otherwise a busy core delivers its response,
and a command presented meanwhile is held off (R206, log 2); an idle core accepts the presented command and executes it
(R22, R50), or holds its state when there is none (R179, log 4). -/
def step (s : State) : Host.Outcome State Fault Refusal :=
  match s.inputs with
  | [] => .next (deliver s)
  | .nothing :: rest => .next (deliver { s with inputs := rest })
  | .reset :: rest => .next (applyReset rest s)
  | .command cw din :: rest =>
    match s.busy with
    | .yes _ => .next (deliver s)
    | .no => runCommand cw (accept din rest s)

/-- The state in which the host presents, before anything else, the command word the opcode table's numbering gives, with
as many zero bytes of data in as the word calls for (R53), to a core that is not busy (log 7). -/
def State.withFetchWord (s : State) (nbits w : Nat) : State :=
  { s with
    busy := .no
    inputs := .command (tableWord nbits w) (List.replicate (dinLengthOfWord (tableWord nbits w)) 0x00#8) :: s.inputs }

end Sys2Proof.Machine
end

