-- ==== Sys2Proof/Machine/Calls.lean ====
section
/-! DEFINITION. The internal Down and Up calls a command makes (R110, R128; the `internal:` lines of 95_test_vectors.md). A second
description beside the meanings, from the rules' own words, which obligations compare with them. -/

namespace Sys2Proof.Machine

/-- One call of an internal primitive. -/
inductive Call where
  /-- Down(block, cd) (R100). -/
  | down (block : List Byte) (cd : Byte)
  /-- Up(cu, outLen) (R101). -/
  | up (cu : Byte) (outLen : Nat)
  deriving DecidableEq, Repr

/-- What of a call the spec lets depend on lengths, mode and phase only: which primitive, its length, its domain byte
(R62, R210). -/
structure CallShape where
  /-- Down rather than Up. -/
  isDown : Bool
  /-- `len(block)` or `outLen`. -/
  length : Nat
  /-- `cd` or `cu`. -/
  domain : Byte
  deriving DecidableEq, Repr

/-- The shape of a call. -/
def Call.shape : Call → CallShape
  | .down block cd => ⟨true, block.length, cd⟩
  | .up cu outLen => ⟨false, outLen, cu⟩

/-- Whether the call is a Down. -/
def Call.isDown (k : Call) : Bool := k.shape.isDown

/-- Whether the call is an Up, which runs one permutation (R101). -/
def Call.isUp (k : Call) : Bool := !k.shape.isDown

/-- The effect of one call on the instance (R100, R101). -/
def Call.run (k : Call) (c : Cyclist) : Cyclist :=
  match k with
  | .down block cd => c.down block cd
  | .up cu _ => c.up cu

/-- The effect of the calls, one after the other. -/
def runCalls (ks : List Call) (c : Cyclist) : Cyclist := ks.foldl (fun c k => k.run c) c

/-- The Up of AbsorbAny's guard, if the phase asks for it (R102). -/
def guardCalls : Phase → List Call
  | .up => []
  | .down => [.up 0x00#8 0]

/-- AbsorbAny's calls over its chunks (R102). -/
def absorbCalls : List (List Byte) → Byte → Phase → List Call
  | [], _, _ => []
  | b :: bs, cd, ph => guardCalls ph ++ .down b cd :: absorbCalls bs Config.absorbCdMain .down

/-- SqueezeAny's calls after the first Up (R103). -/
def squeezeMoreCalls : List Nat → List Call
  | [] => []
  | n :: ns => .down [] 0x00#8 :: .up 0x00#8 n :: squeezeMoreCalls ns

/-- SqueezeAny's calls over the lengths of its chunks (R103). -/
def squeezeCalls : List Nat → Byte → List Call
  | [], _ => []
  | n :: ns, cuFirst => .up cuFirst n :: squeezeMoreCalls ns

/-- Crypt's calls over its chunks (R104). -/
def cryptCalls (dir : Direction) : List (List Byte) → Byte → Cyclist → List Call
  | [], _, _ => []
  | chunk :: rest, cu, c =>
    let p := dir.plaintext chunk ((c.up cu).lanes.xorExtract chunk)
    .up cu 0 :: .down p Config.cryptCd ::
      cryptCalls dir rest Config.cryptCuMain ((c.up cu).down p Config.cryptCd)

/-- AbsorbKey's calls (R105): the mode is already Keyed and PHASE is Up at the first, Down at the counter's. -/
def keyCalls (key id counter : List Byte) : List Call :=
  absorbCalls (absorbChunks Config.rkin (keyBuffer key id)) Config.absorbKeyCd .up ++
    match counter with
    | [] => []
    | _ :: _ => absorbCalls (absorbChunks Config.counterRate counter) Config.absorbCdMain .down

/-- The calls INSTANTIATE makes: none for an empty key (R120). -/
def instantiateCalls (key id counter : List Byte) : List Call :=
  match key with
  | [] => []
  | _ :: _ => keyCalls key id counter

/-- The Down and Up calls of a command that is not rejected, given its `din` and the instance before it (R128). The codec and
permutation commands make none. -/
def callsOf (i : Instr) (din : List Byte) (c : Cyclist) : List Call :=
  match i with
  | .loadBytes _ => []
  | .storeBytes => []
  | .xorStateBytes _ => []
  | .xorByteAt _ _ => []
  | .xorExtract _ => []
  | .permute _ => []
  | .down cd _ => [.down din cd]
  | .up cu outLen => [.up cu outLen]
  | .absorbAny cdFirst rate _ => absorbCalls (absorbChunks rate din) cdFirst c.phase
  | .squeezeAny cuFirst outLen => squeezeCalls (squeezeLengths c.rsqz.bytes outLen) cuFirst
  | .instantiate idLen keyLen counterLen =>
    instantiateCalls (keyOf keyLen din) (idOf keyLen idLen din) (counterOf keyLen idLen counterLen din)
  | .absorb _ => absorbCalls (absorbChunks c.rabs.bytes din) Config.absorbCdInit c.phase
  | .absorbBlock cd _ => guardCalls c.phase ++ [.down din cd]
  | .encrypt _ => cryptCalls .encrypt (chunks Config.rkout din) Config.cryptCuInit c
  | .decrypt _ => cryptCalls .decrypt (chunks Config.rkout din) Config.cryptCuInit c
  | .squeeze n => squeezeCalls (squeezeLengths c.rsqz.bytes n) Config.squeezeCuInit
  | .squeezeKey n => squeezeCalls (squeezeLengths c.rsqz.bytes n) Config.squeezeKeyCu
  | .ratchet => [.up Config.ratchetCu 16, .down ((c.up Config.ratchetCu).output 16) Config.absorbCdMain]

/-- The instance a command's calls start from: INSTANTIATE's start from a fresh one, already switched to Keyed if the key is
not empty (R105, R120); every other command's from the instance as it is. -/
def callsStart (i : Instr) (c : Cyclist) : Cyclist :=
  match i with
  | .instantiate _ keyLen _ => if keyLen = 0 then Cyclist.fresh else Cyclist.fresh.enterKeyed
  | _ => c

end Sys2Proof.Machine
end

