-- ==== Sys2Proof/Machine/HostSequences.lean ====
section
/-! DEFINITION. The host sequences (44_host_sequences.md) and the pseudo-instructions (R61): what a host presents to the core and
what it does with the responses. Nothing here is hardware; `exec` and `step` use none of it. -/

namespace Sys2Proof.HostSide

open Sys2Proof.Machine

/-! ### Presenting commands and taking responses -/

/-- What ends a call of the host without a result. -/
inductive Failure where
  /-- An error returned to the caller: the core's, or the host's own (R171, R180). -/
  | error (e : ErrorKind)
  /-- A programmer error that is fatal: the host program goes no further (R157, U20). -/
  | fatal (e : ErrorKind)
  /-- An operand that no command word can spell (log 15). -/
  | unspellable
  /-- The core stopped, or answered otherwise than the call expects; it does neither when every transaction is well framed. -/
  | noAnswer
  deriving DecidableEq, Repr

/-- The transaction of a command and its data-in stream (R50). For a command that is not well formed `encode` keeps only the
low bits of a number that its field has no room for; the sequences below issue none (log 15). -/
def issue (i : Instr) (din : List Byte) : HostInput := .command (encode i) din

/-- INSTANTIATE with the three byte strings; `LEN`, `B` and `C` are computed from their lengths (R60). -/
def instantiateCall (key id counter : List Byte) : Instr × List Byte :=
  (.instantiate id.length key.length counter.length, key ++ id ++ counter)

/-- The transactions of a list of commands. MODEL'S CHOICE: when an operand of the library call fits no field of the command
word (`rounds >= 256`, a length of `2^32` or more), of which the spec says nothing, the host presents no command at all and the
call fails (log 15). -/
def plan (calls : List (Instr × List Byte)) : Except Failure (List HostInput) :=
  if calls.all (fun c => c.1.wf) then .ok (calls.map fun c => issue c.1 c.2) else .error .unspellable

/-- The host, which owns the idle core, presents one transaction and takes its response (R50, R207): a step that executes it and
a step that delivers (log 1). -/
def ask (e : HostInput) (s : State) : Option (State × Response) :=
  match Sys2Proof.core.run 2 ({ s with inputs := [e] } : State) with
  | .next t => t.received.getLast?.map fun r => (t, r)
  | .fault _ => none
  | .refused _ => none

/-- The host presents transactions one after the other. MODEL'S CHOICE: at an error status it stops, presents none of the rest
and returns that error. The spec says so of KeyTooLarge in the sequences of 44_host_sequences.md (U17); of `permute(state,
rounds)` after a rejected LOADBYTES or PERMUTE (R61, R88), and of any other error status, it says nothing (log 18). -/
def converse : List HostInput → State → State × Except Failure (List Response)
  | [], s => (s, .ok [])
  | e :: es, s =>
    match ask e s with
    | none => (s, .error .noAnswer)
    | some (t, r) =>
      match r.status with
      | .error k => (t, .error (.error k))
      | .ok => ((converse es t).1, (converse es t).2.map fun rs => r :: rs)

/-- A call of the host from its plan to its result: the core afterwards, and what the caller gets. A plan that fails issues no
command. -/
def perform {α : Type} (p : Except Failure (List HostInput)) (result : List Response → Option α) (s : State) :
    State × Except Failure α :=
  match p with
  | .error f => (s, .error f)
  | .ok es =>
    ((converse es s).1, (converse es s).2.bind fun rs =>
      match result rs with
      | none => .error .noAnswer
      | some a => .ok a)

/-- The data-out stream of the last response. -/
def lastDout (rs : List Response) : Option (List Byte) := rs.getLast?.map Response.dout

/-! ### The permutation and the hash (R61, R88, R150, R151) -/

/-- `permute(state, rounds)` of the library surface (R61, R88). MODEL'S CHOICE: with `rounds > 255` no command is issued
(`plan`, log 15); 13 to 255 rounds are the core's InvalidRounds. How the host goes on after a rejection is `converse`'s choice
(log 18). -/
def permuteSequence (state : List Byte) (rounds : Nat) : Except Failure (List HostInput) :=
  plan [(.loadBytes state.length, state), (.permute rounds, []), (.storeBytes, [])]

/-- `permute(state, rounds)`, run (R61). MODEL'S CHOICE: after a rejected LOADBYTES or PERMUTE the later commands are not issued,
and the call returns the error (`converse`, log 18). -/
def permuteRun (state : List Byte) (rounds : Nat) (s : State) : State × Except Failure (List Byte) :=
  perform (permuteSequence state rounds) lastDout s

/-- `HashLen(msg, n)` (R151); a `msg` or an `n` of `2^32` or more issues no command (`plan`, log 15). -/
def hashLenSequence (msg : List Byte) (n : Nat) : Except Failure (List HostInput) :=
  plan [instantiateCall [] [] [], (.absorb msg.length, msg), (.squeeze n, [])]

/-- `HashLen(msg, n)`, run (R151). -/
def hashLenRun (msg : List Byte) (n : Nat) (s : State) : State × Except Failure (List Byte) :=
  perform (hashLenSequence msg n) lastDout s

/-- `Size`, the bytes of a hash (R150). -/
def hashSize : Nat := 32

/-- `BlockSize`, the bytes of a block of the hash (R150). -/
def blockSize : Nat := Config.hashAbsorbRate

/-- `Hash(msg)`: 32 bytes (R150). -/
def hashSequence (msg : List Byte) : Except Failure (List HostInput) := hashLenSequence msg hashSize

/-- `Hash(msg)`, run (R150). -/
def hashRun (msg : List Byte) (s : State) : State × Except Failure (List Byte) := perform (hashSequence msg) lastDout s

/-! ### AEAD (R153 to R156) -/

/-- `NonceSize` (R155). -/
def nonceSize : Nat := Config.aeadBytes

/-- `Overhead`, the bytes of a tag (R155). -/
def overhead : Nat := Config.aeadBytes

/-- The host's check of the AEAD key and nonce lengths in EncryptAEAD and DecryptAEAD. Which of the two errors is reported when
both lengths are wrong is not stated: a free value (R155, U19, log 12). -/
def aeadLengthError (key nonce : List Byte) : Option ErrorKind :=
  if key.length = Config.aeadBytes then
    if nonce.length = nonceSize then none else some .invalidNonceLength
  else if nonce.length = nonceSize then some .invalidKeyLength
  else if Config.keyLengthReportedFirst then some .invalidKeyLength else some .invalidNonceLength

/-- The plan of an AEAD call: the host's checks, then INSTANTIATE, ABSORB of the associated data, the ENCRYPT or DECRYPT, and
SQUEEZE of the tag (R153, R154, R155). -/
def aeadPlan (key nonce ad : List Byte) (crypt : Instr × List Byte) : Except Failure (List HostInput) :=
  match aeadLengthError key nonce with
  | some e => .error (.error e)
  | none => plan [instantiateCall key nonce [], (.absorb ad.length, ad), crypt, (.squeeze overhead, [])]

/-- `EncryptAEAD(pt, key, nonce, ad)`: the commands, or the host's error before any command (R153, R155). -/
def encryptSequence (pt key nonce ad : List Byte) : Except Failure (List HostInput) :=
  aeadPlan key nonce ad (.encrypt pt.length, pt)

/-- `DecryptAEAD(ct, key, nonce, ad, tag)`: the commands, or the host's error before any command (R154, R155). -/
def decryptSequence (ct key nonce ad : List Byte) : Except Failure (List HostInput) :=
  aeadPlan key nonce ad (.decrypt ct.length, ct)

/-- `(ct, tag)` from the responses to the four commands of EncryptAEAD (R153). -/
def encryptResult (rs : List Response) : Option (List Byte × List Byte) :=
  match rs with
  | [_, _, ct, tag] => some (ct.dout, tag.dout)
  | _ => none

/-- `(pt, valid)` from the responses to the four commands of DecryptAEAD: on a tag mismatch the recovered bytes are discarded
(R154, R156, 90_conflicts.md C6). -/
def decryptResult (tag : List Byte) (rs : List Response) : Option (List Byte × Bool) :=
  match rs with
  | [_, _, pt, tag'] => some (if tag'.dout = tag then (pt.dout, true) else ([], false))
  | _ => none

/-- `EncryptAEAD(pt, key, nonce, ad)`, run (R153). -/
def encryptRun (pt key nonce ad : List Byte) (s : State) : State × Except Failure (List Byte × List Byte) :=
  perform (encryptSequence pt key nonce ad) encryptResult s

/-- `DecryptAEAD(ct, key, nonce, ad, tag)`, run (R154). -/
def decryptRun (ct key nonce ad tag : List Byte) (s : State) : State × Except Failure (List Byte × Bool) :=
  perform (decryptSequence ct key nonce ad) (decryptResult tag) s

/-! ### The standard AEAD wrapper (R157) -/

/-- The wrapper: it "holds the key from its construction" (R157). -/
structure Aead where
  /-- The key, of 16 bytes when `newAead` made the wrapper. -/
  key : List Byte
  deriving DecidableEq, Repr

/-- `NewXoodyakAEAD`: it is given the key alone and checks it alone (R155, R157, seed scenario 6). -/
def newAead (key : List Byte) : Except Failure Aead :=
  if key.length = Config.aeadBytes then .ok ⟨key⟩ else .error (.error .invalidKeyLength)

/-- The end of the message of an InvalidKeyLength; the spec leaves its beginning out (R155, seed scenario 6). -/
def keyLengthMessage (key : List Byte) : String :=
  "given key length (" ++ key.length.repr ++ " bytes) incorrect (16 bytes)"

/-- The commands of `Seal`: a nonce of the wrong length is fatal and issues none, Seal has no error return (R157, U20). -/
def Aead.sealSequence (w : Aead) (nonce pt ad : List Byte) : Except Failure (List HostInput) :=
  if nonce.length = nonceSize then encryptSequence pt w.key nonce ad else .error (.fatal .invalidNonceLength)

/-- `Seal(dst, nonce, pt, ad)` from the responses: `dst || ct || tag` (R157). -/
def sealResult (dst : List Byte) (rs : List Response) : Option (List Byte) :=
  (encryptResult rs).map fun r => dst ++ r.1 ++ r.2

/-- `Seal(dst, nonce, pt, ad)`, run: one run of EncryptAEAD (R157). -/
def Aead.sealRun (w : Aead) (dst nonce pt ad : List Byte) (s : State) : State × Except Failure (List Byte) :=
  perform (w.sealSequence nonce pt ad) (sealResult dst) s

/-- `Open`'s split of its input: the last 16 bytes are the tag; a shorter input is InvalidCiphertextLength (R155, R157,
90_conflicts.md C8). -/
def openSplit (ctTag : List Byte) : Except ErrorKind (List Byte × List Byte) :=
  if ctTag.length < overhead then .error .invalidCiphertextLength
  else .ok (ctTag.take (ctTag.length - overhead), ctTag.drop (ctTag.length - overhead))

/-- The commands of `Open` with the tag to compare, or a normal error (R157). Which error is reported when both the nonce and
the input have a wrong length is not stated: a free value (log 12). -/
def Aead.openSequence (w : Aead) (nonce ctTag ad : List Byte) : Except Failure (List HostInput × List Byte) :=
  match openSplit ctTag with
  | .error e =>
    if nonce.length ≠ nonceSize ∧ Config.nonceReportedBeforeCiphertext then .error (.error .invalidNonceLength)
    else .error (.error e)
  | .ok (ct, tag) => (decryptSequence ct w.key nonce ad).map fun es => (es, tag)

/-- `Open`'s result from the responses: AuthenticationFailed and no plaintext on a tag mismatch (R156, R157). MODEL'S CHOICE: on
success, of which the rule says nothing, it returns `dst || pt`, as Seal returns `dst || ct || tag` (log 17). -/
def openResult (dst tag : List Byte) (rs : List Response) : Option (Except ErrorKind (List Byte)) :=
  (decryptResult tag rs).map fun r => if r.2 then .ok (dst ++ r.1) else .error .authenticationFailed

/-- `Open(dst, nonce, ct||tag, ad)`, run: one run of DecryptAEAD (R157). -/
def Aead.openRun (w : Aead) (dst nonce ctTag ad : List Byte) (s : State) : State × Except Failure (List Byte) :=
  match w.openSequence nonce ctTag ad with
  | .error f => (s, .error f)
  | .ok (es, tag) =>
    let r := perform (.ok es) (openResult dst tag) s
    (r.1, r.2.bind fun x =>
      match x with
      | .ok pt => .ok pt
      | .error e => .error (.error e))

/-! ### The streaming digest adapter (R152) -/

/-- The streaming digest adapter's state: a buffer of at most 15 bytes between writes, the domain byte of the next block, and
whether anything was absorbed (R152). -/
structure Digest where
  /-- The bytes not yet absorbed. -/
  buf : List Byte
  /-- `AbsorbCdInit` before the first block, `AbsorbCdMain` after it. -/
  cd : Byte
  /-- Some block was absorbed. -/
  absorbed : Bool
  deriving DecidableEq, Repr

/-- The digest's initial state (R152). -/
def Digest.initial : Digest := { buf := [], cd := Config.absorbCdInit, absorbed := false }

/-- The command of `Reset`: a new instance (R152). -/
def digestResetSequence : List HostInput := [issue (.instantiate 0 0 0) []]

/-- `Reset`: the initial state and a new instance (R152). -/
def Digest.reset : Digest × List HostInput := (Digest.initial, digestResetSequence)

/-- `Size` (R152, R150). -/
def Digest.size : Nat := hashSize

/-- `BlockSize` (R152, R150). -/
def Digest.blockSize : Nat := HostSide.blockSize

/-- The ABSORBBLOCK of a block with the digest's domain byte (R152). -/
def Digest.absorbCommand (d : Digest) (block : List Byte) : HostInput := issue (.absorbBlock d.cd block.length) block

/-- The digest when it has absorbed a block: the buffer is empty and `cd` is `AbsorbCdMain` (R152). -/
def Digest.afterBlock : Digest := { buf := [], cd := Config.absorbCdMain, absorbed := true }

/-- `Write`: a full 16-byte buffer is absorbed at once (R152). -/
def Digest.write : List Byte → Digest → Digest × List HostInput
  | [], d => (d, [])
  | b :: bs, d =>
    if (d.buf ++ [b]).length = blockSize then
      let r := Digest.write bs Digest.afterBlock
      (r.1, d.absorbCommand (d.buf ++ [b]) :: r.2)
    else Digest.write bs { d with buf := d.buf ++ [b] }

/-- `Sum`, the digest afterwards and its commands: absorb what is left in the buffer with the current `cd` and set `cd` to
`AbsorbCdMain`, or perform the one empty Down if nothing was absorbed yet; then squeeze 32 bytes (R152). MODEL'S CHOICE: Sum
works on the instance and not on a copy of it, so the buffer is empty and something was absorbed afterwards; and after the empty
Down, of which the rule does not say that it sets `cd`, `cd` is as it was (N8, U21, log 16). -/
def Digest.sum (d : Digest) : Digest × List HostInput :=
  let squeeze := issue (.squeeze hashSize) []
  if d.buf ≠ [] then (Digest.afterBlock, [d.absorbCommand d.buf, squeeze])
  else if d.absorbed then (d, [squeeze])
  else ({ d with absorbed := true }, [issue (.absorbBlock Config.absorbCdInit 0) [], squeeze])

/-- `Sum(pre)` from the responses: `pre || hash`, the hash being the answer to the SQUEEZE (R152). -/
def sumResult (pre : List Byte) (rs : List Response) : Option (List Byte) := (lastDout rs).map fun h => pre ++ h

/-- `Reset`, run (R152). -/
def Digest.resetRun (s : State) : State × Except Failure Digest :=
  perform (.ok Digest.reset.2) (fun _ => some Digest.reset.1) s

/-- `Write(x)`, run (R152). -/
def Digest.writeRun (d : Digest) (x : List Byte) (s : State) : State × Except Failure Digest :=
  perform (.ok (Digest.write x d).2) (fun _ => some (Digest.write x d).1) s

/-- `Sum(pre)`, run: `pre || hash` and the digest afterwards (R152). -/
def Digest.sumRun (d : Digest) (pre : List Byte) (s : State) : State × Except Failure (List Byte × Digest) :=
  perform (.ok d.sum.2) (fun rs => (sumResult pre rs).map fun h => (h, d.sum.1)) s

/-! ### Commands without the channel -/

/-- The commands of a list, one after the other, each with its data in, by one host that owns the core (R207); the first stop
ends them. -/
def execAll : List (Instr × List Byte) → State → Outcome
  | [], s => .next s
  | (i, din) :: rest, s =>
    match exec i { s with din := din } with
    | .next t => execAll rest t
    | .fault r => .fault r
    | .refused r => .refused r

end Sys2Proof.HostSide
end

