-- ==== Sys2Proof/Safety.lean ====
section
/-! DEFINITION. What claims are stated in: the invariants of the core (R16, R54), well-framed transactions (R53) and safe
runs (R209). -/

namespace Sys2Proof.Machine

/-- `(MODE, RABS, RSQZ)` is `(Hash, 16, 16)` or `(Keyed, 44, 24)` (R16). -/
def Cyclist.ratesAgree (c : Cyclist) : Bool := c.rabs == c.mode.absorbRate && c.rsqz == c.mode.squeezeRate

/-- A response the core may give: its `dout` has a length that 32 bits count, and a rejection has an empty `dout` and a status
the core raises (R54, R171). -/
def Response.wellFormed (r : Response) : Bool :=
  r.dout.length < 2 ^ 32 &&
    match r.status with
    | .ok => true
    | .error e => r.dout == [] && e.raisedByCore

/-- Every response held or delivered is well formed (R54). -/
def State.responsesWellFormed (s : State) : Bool :=
  s.received.all Response.wellFormed &&
    match s.busy with
    | .no => true
    | .yes r => r.wellFormed

/-- The invariant of the core and its response channel (R16, R54). -/
def State.inv (s : State) : Bool := s.cyclist.ratesAgree && s.responsesWellFormed

/-- The host supplies exactly the bytes the command word calls for (R53, D24). -/
def HostInput.wellFramed : HostInput → Bool
  | .command cw din => din.length == dinLengthOfWord cw
  | .reset => true
  | .nothing => true

/-- Everything the host will present is well framed (R53). -/
def State.wellFramed (s : State) : Bool := s.inputs.all HostInput.wellFramed

/-- Whether the host applies no reset at the next step (R201). -/
def State.noResetNext (s : State) : Bool :=
  match s.inputs with
  | .reset :: _ => false
  | _ => true

/-- The outcome is a next state. -/
def isNext : Outcome → Bool
  | .next _ => true
  | .fault _ => false
  | .refused _ => false

/-- A safe run: none of the first `n` steps stops (R209). -/
def SafeRun (n : Nat) (s : State) : Prop := isNext (Sys2Proof.core.run n s) = true

end Sys2Proof.Machine
end

