-- ==== Sys2Proof/Certificates/Slice0/Obligations.lean ====
section
/-! DEFINITION. The statements for the provers. Each docstring names the rules of spec/ it comes from. -/

open Sys2Proof Sys2Proof.Machine

/-! ### Encoding (30_encoding.md) -/

/-- R51, R55: words written out from the encoding (95_test_vectors.md) decode to the commands they stand for, at least one of
each family. -/
def Obligations.VectorWordsDecode : Prop :=
  decode 0x0100000000000030#64 = .ok (.loadBytes 48) ∧
  decode 0x04012F0000000000#64 = .ok (.xorByteAt 0x01#8 47) ∧
  decode 0x100C000000000000#64 = .ok (.permute 12) ∧
  decode 0x22032C0000000005#64 = .ok (.absorbAny 0x03#8 44 5) ∧
  decode 0x2140000000000004#64 = .ok (.up 0x40#8 4) ∧
  decode 0x3000101000000000#64 = .ok (.instantiate 16 16 0) ∧
  decode 0x30000B2000000000#64 = .ok (.instantiate 11 32 0) ∧
  decode 0x3500000000000020#64 = .ok (.squeeze 32) ∧
  decode 0x3700000000000000#64 = .ok .ratchet ∧
  decode 0x3700000100000000#64 = .error .unusedFieldNotZero

/-- R51, R52, R55, R56: decoding the word of a well-formed command gives the command back, with every operand. -/
def Obligations.DecodeOfEncodeIsTheCommand : Prop :=
  ∀ i : Instr, i.wf = true → decode (encode i) = .ok i

/-- R57, D7: a word that decodes is the word of what it decodes to, and that command is well formed. -/
def Obligations.EncodeOfDecodeIsTheWord : Prop :=
  ∀ (cw : CommandWord) (i : Instr), decode cw = .ok i → i.wf = true ∧ encode i = cw

/-- R55: a word decodes to a command exactly when one row of the match/mask table selects it, that row is the command's, and
no other row selects the word. -/
def Obligations.DecoderAgreesWithMatchAndMask : Prop :=
  (∀ (cw : CommandWord) (i : Instr), decode cw = .ok i →
    (opcodeRows.filter fun row => row.selects cw).map OpcodeRow.mnemonic = [i.mnemonic]) ∧
  (∀ cw : CommandWord, (∃ i, decode cw = .ok i) ↔ ∃ row ∈ opcodeRows, cw &&& row.mask = row.pattern)

/-- R57: the illegal words, and their answer. -/
def Obligations.IllegalWordsAreAnsweredIllegalCommand : Prop :=
  (∀ cw : CommandWord, (∀ row ∈ opcodeRows, cw &&& row.mask ≠ row.pattern) ↔
    ((fieldsOf cw).opc ∉ [0x01#8, 0x02#8, 0x03#8, 0x04#8, 0x05#8, 0x10#8, 0x20#8, 0x21#8, 0x22#8, 0x23#8, 0x30#8, 0x31#8,
        0x32#8, 0x33#8, 0x34#8, 0x35#8, 0x36#8, 0x37#8] ∨
      ((fieldsOf cw).opc ∈ [0x02#8, 0x37#8] ∧
        ¬((fieldsOf cw).a = 0 ∧ (fieldsOf cw).b = 0 ∧ (fieldsOf cw).c = 0 ∧ (fieldsOf cw).len = 0)) ∨
      ((fieldsOf cw).opc ∈ [0x01#8, 0x03#8, 0x05#8, 0x31#8, 0x33#8, 0x34#8, 0x35#8, 0x36#8] ∧
        ¬((fieldsOf cw).a = 0 ∧ (fieldsOf cw).b = 0 ∧ (fieldsOf cw).c = 0)) ∨
      ((fieldsOf cw).opc = 0x04#8 ∧ ¬((fieldsOf cw).c = 0 ∧ (fieldsOf cw).len = 0)) ∨
      ((fieldsOf cw).opc = 0x10#8 ∧ ¬((fieldsOf cw).b = 0 ∧ (fieldsOf cw).c = 0 ∧ (fieldsOf cw).len = 0)) ∨
      ((fieldsOf cw).opc ∈ [0x20#8, 0x21#8, 0x23#8, 0x32#8] ∧ ¬((fieldsOf cw).b = 0 ∧ (fieldsOf cw).c = 0)) ∨
      ((fieldsOf cw).opc = 0x22#8 ∧ (fieldsOf cw).c ≠ 0) ∨
      ((fieldsOf cw).opc = 0x30#8 ∧ (fieldsOf cw).a ≠ 0))) ∧
  (∀ row ∈ opcodeRows, 0#64 &&& row.mask ≠ row.pattern) ∧
  (∀ (cw : CommandWord) (rest : List HostInput) (s : State),
    (∀ row ∈ opcodeRows, cw &&& row.mask ≠ row.pattern) → s.busy = .no → s.inputs = .command cw [] :: rest →
    step s = .next { s with inputs := rest, din := [], busy := .yes ⟨.error .illegalCommand, []⟩ })

/-- R53: the length of the data-in stream is fixed by the command word alone: `LEN` in formats D and AD, `C + B + LEN` in format
K, none in formats N, I and O and for an illegal word. That the core takes exactly so many bytes is
`OnlyMalformedTransactionsStop`. -/
def Obligations.DataInLengthIsFixedByTheWord : Prop :=
  ∀ cw : CommandWord,
    ((∀ row ∈ opcodeRows, cw &&& row.mask ≠ row.pattern) → dinLengthOfWord cw = 0) ∧
    ((∃ row ∈ opcodeRows, cw &&& row.mask = row.pattern) →
      ((fieldsOf cw).opc ∈ [0x01#8, 0x03#8, 0x05#8, 0x31#8, 0x33#8, 0x34#8, 0x20#8, 0x32#8, 0x22#8] →
        dinLengthOfWord cw = (fieldsOf cw).len.toNat) ∧
      ((fieldsOf cw).opc = 0x30#8 →
        dinLengthOfWord cw = (fieldsOf cw).c.toNat + (fieldsOf cw).b.toNat + (fieldsOf cw).len.toNat) ∧
      ((fieldsOf cw).opc ∈ [0x02#8, 0x37#8, 0x04#8, 0x10#8, 0x21#8, 0x23#8, 0x35#8, 0x36#8] → dinLengthOfWord cw = 0))

/-! ### The step and the channel (R22, R50, R200, R201, R206) -/

/-- R50, R39: an idle core to which the host presents a word that decodes to `i` executes exactly `i`, on its state with the
data-in stream taken over and the event taken off the channel. -/
def Obligations.StepRunsTheDecodedCommand : Prop :=
  ∀ (s : State) (cw : CommandWord) (din : List Byte) (rest : List HostInput) (i : Instr),
    s.busy = .no → s.inputs = .command cw din :: rest → decode cw = .ok i →
    step s = exec i { s with din := din, inputs := rest }

/-- R22, R206, and the model's choice that a command presented while BUSY is held off (log 2): a busy core delivers its
response, BUSY falls, nothing else of the core changes, and a command presented meanwhile is still presented. -/
def Obligations.BusyCoreDeliversItsResponse : Prop :=
  ∀ (s : State) (r : Response), s.busy = .yes r → s.noResetNext = true →
    ∃ rest, step s = .next { s with busy := .no, received := s.received ++ [r], inputs := rest } ∧
      (s.inputs = [] → rest = []) ∧
      (∀ cw din later, s.inputs = .command cw din :: later → rest = s.inputs) ∧
      (∀ later, s.inputs = .nothing :: later → rest = later)

/-- R179's file, section 7, and log 4: an idle core to which nothing is presented holds its state. -/
def Obligations.IdleCoreHoldsItsState : Prop :=
  ∀ s : State, s.busy = .no → s.inputs = [] → step s = .next s

/-- R200: the state after reset, which is that of a Hash-mode INSTANTIATE. -/
def Obligations.ResetGivesTheFreshInstance : Prop :=
  (∀ i : Fin 12, State.reset.cyclist.lanes[i] = 0#32) ∧ State.reset.cyclist.mode = .hash ∧
  State.reset.cyclist.phase = .up ∧ State.reset.cyclist.rabs.bytes = 16 ∧ State.reset.cyclist.rsqz.bytes = 16 ∧
  State.reset.isBusy = false ∧
  (∀ (s : State) (rest : List HostInput), s.inputs = .reset :: rest →
    ∃ t, step s = .next t ∧ t.cyclist = State.reset.cyclist ∧ t.isBusy = false) ∧
  (∀ s : State, s.din = [] → ∃ t, exec (.instantiate 0 0 0) s = .next t ∧ t.cyclist = State.reset.cyclist)

/-- R201, and the model's choice of what the host keeps (log 6): a reset while a command is running abandons it, no response is
delivered for it. -/
def Obligations.ResetAbandonsTheRunningCommand : Prop :=
  ∀ (s : State) (r : Response) (rest : List HostInput), s.busy = .yes r → s.inputs = .reset :: rest →
    step s = .next { cyclist := State.reset.cyclist, busy := .no, din := [], inputs := rest, received := s.received }

/-- D24, U11 (the model's form of "stuck" is a fault, log 3): a command stops exactly when its data-in stream has not the length
its word fixes; otherwise it answers a next state; and a step of the core stops only so. -/
def Obligations.OnlyMalformedTransactionsStop : Prop :=
  (∀ (i : Instr) (s : State),
    (s.din.length ≠ dinLength i → exec i s = .fault .malformedTransaction) ∧
    (s.din.length = dinLength i → ∃ t, exec i s = .next t)) ∧
  (∀ (s : State) (cw : CommandWord) (din : List Byte) (rest : List HostInput),
    s.busy = .no → s.inputs = .command cw din :: rest →
    (din.length ≠ dinLengthOfWord cw → step s = .fault .malformedTransaction) ∧
    (din.length = dinLengthOfWord cw → ∃ t, step s = .next t)) ∧
  (∀ s : State, (∀ cw din rest, s.inputs ≠ .command cw din :: rest) ∨ s.busy ≠ .no → ∃ t, step s = .next t)

/-- R36, R38, R54: what every command leaves alone and what every command does: `din` is consumed whole, a response is made,
the channel is untouched. -/
def Obligations.EveryCommandIsOneTransaction : Prop :=
  ∀ (i : Instr) (s t : State), exec i s = .next t →
    t.inputs = s.inputs ∧ t.received = s.received ∧ t.din = [] ∧ ∃ r, t.busy = .yes r

/-! ### Rejection (60_exceptions.md) -/

/-- R172: a rejected command, an illegal word among them, changes no architectural state, its `din` is consumed, its response is
the error with empty `dout`. When that response is delivered `BUSY` falls and the core is as it was before the command, and the
command the host presents next is executed normally: the step is its run from the instance as it was. (The channel is the
model's own, log 5; one step executes, one delivers, log 1. The next command is one presented after `BUSY` fell, so nothing here
rests on log 2.) -/
def Obligations.RejectionChangesNothing : Prop :=
  (∀ (i : Instr) (s t : State) (r : Response) (e : ErrorKind),
    exec i s = .next t → t.busy = .yes r → r.status = .error e →
    t = { s with din := [], busy := .yes ⟨.error e, []⟩ }) ∧
  (∀ (s t : State) (cw : CommandWord) (din : List Byte) (rest : List HostInput) (r : Response) (e : ErrorKind),
    s.busy = .no → s.inputs = .command cw din :: rest → step s = .next t → t.busy = .yes r → r.status = .error e →
    t = { s with din := [], inputs := rest, busy := .yes ⟨.error e, []⟩ } ∧
    (t.noResetNext = true → ∃ u, step t = .next u ∧
      u.cyclist = s.cyclist ∧ u.busy = .no ∧ u.din = [] ∧ u.received = s.received ++ [⟨.error e, []⟩] ∧
      ∀ (cw' : CommandWord) (din' : List Byte) (later : List HostInput),
        step { u with inputs := .command cw' din' :: later } =
          runCommand cw' { u with din := din', inputs := later }))

/-- R173: every cause of a rejection, by command; a command with none runs to its end; the response to a rejection is the status
code and nothing else. -/
def Obligations.RejectionCausesByCommand : Prop :=
  (∀ (i : Instr) (s : State), s.din.length = dinLength i →
    let cause : Option ErrorKind :=
      match i with
      | .loadBytes len => if len ≠ 48 then some .invalidStateLength else none
      | .xorStateBytes len => if len ≠ 48 then some .invalidStateLength else none
      | .xorByteAt _ offset => if offset ≥ 48 then some .invalidOperand else none
      | .xorExtract n => if n > 48 then some .invalidOperand else none
      | .permute r => if r > 12 then some .invalidRounds else none
      | .down _ len =>
        if (s.cyclist.mode = .keyed ∧ len > 44) ∨ (s.cyclist.mode = .hash ∧ len > 47) then some .invalidOperand else none
      | .up _ outLen => if outLen > 48 then some .invalidOperand else none
      | .absorbAny _ rate _ =>
        if rate = 0 ∨ (s.cyclist.mode = .keyed ∧ rate > 44) ∨ (s.cyclist.mode = .hash ∧ rate > 47)
        then some .invalidOperand else none
      | .instantiate idLen keyLen _ => if keyLen > 0 ∧ keyLen + idLen ≥ 44 then some .keyTooLarge else none
      | .absorbBlock _ len => if len > s.cyclist.rabs.bytes then some .invalidOperand else none
      | .squeezeKey _ => if s.cyclist.mode = .hash then some .modeViolation else none
      | .ratchet => if s.cyclist.mode = .hash then some .modeViolation else none
      | .storeBytes => none
      | .squeezeAny _ _ => none
      | .absorb _ => none
      | .encrypt _ => none
      | .decrypt _ => none
      | .squeeze _ => none
    ∃ t r, exec i s = .next t ∧ t.busy = .yes r ∧
      match cause with
      | some e => r = ⟨.error e, []⟩
      | none => r.status = .ok) ∧
  (∀ (cw : CommandWord) (rest : List HostInput) (s : State), s.busy = .no → s.inputs = .command cw [] :: rest →
    (∀ row ∈ opcodeRows, cw &&& row.mask ≠ row.pattern) →
    ∃ t, step s = .next t ∧ t.busy = .yes ⟨.error .illegalCommand, []⟩)

/-- R171: the numbers of the status codes, and which of the error kinds the core itself answers with. -/
def Obligations.StatusCodesAndTheirOrigin : Prop :=
  (Status.ok :: [ErrorKind.invalidRounds, .invalidStateLength, .invalidKeyLength, .invalidNonceLength,
      .invalidCiphertextLength, .keyTooLarge, .modeViolation, .authenticationFailed, .invalidOperand,
      .illegalCommand].map Status.error).map (fun st => st.code.toNat) = [0, 1, 2, 3, 4, 5, 6, 7, 8, 9, 10] ∧
  (∀ e : ErrorKind,
    (∃ (s t : State) (dout : List Byte), s.busy = .no ∧ step s = .next t ∧ t.busy = .yes ⟨.error e, dout⟩) ↔
    e ∈ [.invalidRounds, .invalidStateLength, .keyTooLarge, .modeViolation, .invalidOperand, .illegalCommand])

/-! ### Data independence (R62, R210) -/

/-- R62, R210: the status, the length of `dout` and, for a command that runs to its end, the shapes of the internal calls depend
on no lane and on no data byte, only on the word, the length of `din`, the mode, the phase and the rates. -/
def Obligations.ControlFlowReadsNoData : Prop :=
  ∀ (i : Instr) (s s' t t' : State) (r r' : Response),
    s.din.length = s'.din.length → s.cyclist.mode = s'.cyclist.mode → s.cyclist.phase = s'.cyclist.phase →
    s.cyclist.rabs = s'.cyclist.rabs → s.cyclist.rsqz = s'.cyclist.rsqz →
    exec i s = .next t → exec i s' = .next t' → t.busy = .yes r → t'.busy = .yes r' →
    r.status = r'.status ∧ r.dout.length = r'.dout.length ∧
    t.cyclist.mode = t'.cyclist.mode ∧ t.cyclist.phase = t'.cyclist.phase ∧
    (r.status = .ok →
      (callsOf i s.din s.cyclist).map Call.shape = (callsOf i s'.din s'.cyclist).map Call.shape)

/-! ### Invariants and control fields (10_state.md) -/

/-- R16, R54, R200: the invariant holds after reset. Its clause on delivered responses holds because none is listed at reset: that
`received` is empty there is the model's choice (log 5). -/
def Obligations.ResetMeetsTheCoreInvariant : Prop := State.reset.inv = true

/-- R16, R54: every step keeps the rates those of the mode, and every response held or delivered one the core may give. -/
def Obligations.StepKeepsTheCoreInvariant : Prop :=
  ∀ s t : State, s.inv = true → step s = .next t → t.inv = true

/-- R16: at every command boundary `(MODE, RABS, RSQZ)` is `(Hash, 16, 16)` or `(Keyed, 44, 24)`. -/
def Obligations.StepKeepsRatesOfTheMode : Prop :=
  let agree : Cyclist → Prop := fun c =>
    (c.mode = .hash ∧ c.rabs.bytes = 16 ∧ c.rsqz.bytes = 16) ∨ (c.mode = .keyed ∧ c.rabs.bytes = 44 ∧ c.rsqz.bytes = 24)
  agree State.reset.cyclist ∧ ∀ s t : State, agree s.cyclist → step s = .next t → agree t.cyclist

/-- R13, R15, R64: only INSTANTIATE writes MODE, RABS and RSQZ, and it writes them by whether the key is empty. -/
def Obligations.OnlyInstantiateWritesModeAndRates : Prop :=
  ∀ (i : Instr) (s t : State) (r : Response), exec i s = .next t → t.busy = .yes r →
    ((∀ idLen keyLen counterLen, i ≠ .instantiate idLen keyLen counterLen) →
      t.cyclist.mode = s.cyclist.mode ∧ t.cyclist.rabs = s.cyclist.rabs ∧ t.cyclist.rsqz = s.cyclist.rsqz) ∧
    (∀ idLen keyLen counterLen, i = .instantiate idLen keyLen counterLen → r.status = .ok →
      (keyLen = 0 → t.cyclist.mode = .hash ∧ t.cyclist.rabs.bytes = 16 ∧ t.cyclist.rsqz.bytes = 16) ∧
      (keyLen > 0 → t.cyclist.mode = .keyed ∧ t.cyclist.rabs.bytes = 44 ∧ t.cyclist.rsqz.bytes = 24))

/-- R14, R106 to R109: PHASE after the codec and primitive commands that run to their end. -/
def Obligations.PhaseIsTheLastOfUpAndDown : Prop :=
  ∀ (i : Instr) (s t : State), exec i s = .next t → (∃ d, t.busy = .yes ⟨.ok, d⟩) →
    (i.tier = .codec → t.cyclist.phase = s.cyclist.phase) ∧
    (∀ cd len, i = .down cd len → t.cyclist.phase = .down) ∧
    (∀ cu outLen, i = .up cu outLen → t.cyclist.phase = .up) ∧
    (∀ cd rate len, i = .absorbAny cd rate len → t.cyclist.phase = .down) ∧
    (∀ cu outLen, i = .squeezeAny cu outLen → t.cyclist.phase = if outLen = 0 then s.cyclist.phase else .up)

/-- R75: no codec command, nor PERMUTE (R88), touches a control field, and which of them return bytes. -/
def Obligations.CodecTierWorksOnLanesOnly : Prop :=
  ∀ (i : Instr) (s t : State) (r : Response), i.tier = .codec → exec i s = .next t → t.busy = .yes r →
    t.cyclist.mode = s.cyclist.mode ∧ t.cyclist.phase = s.cyclist.phase ∧ t.cyclist.rabs = s.cyclist.rabs ∧
    t.cyclist.rsqz = s.cyclist.rsqz ∧
    (r.status = .ok → r.dout.length = match i with
      | .storeBytes => 48
      | .xorExtract n => n
      | _ => 0)

/-! ### The byte view (20_memory.md) -/

/-- R31: the byte view is little-endian per lane, concatenated in lane order, 48 bytes. -/
def Obligations.ByteViewIsLittleEndian : Prop :=
  ∀ s : Lanes,
    s.toBytes.length = 48 ∧
    (∀ k, k < 48 → s.toBytes.getD k 0 = s.byte k ∧
      (s.byte k).toNat = (s.getD (k / 4) 0).toNat / 2 ^ (8 * (k % 4)) % 2 ^ 8) ∧
    (∀ i : Fin 12, s[i].toNat = (s.byte (4 * i.val)).toNat + 2 ^ 8 * (s.byte (4 * i.val + 1)).toNat +
      2 ^ 16 * (s.byte (4 * i.val + 2)).toNat + 2 ^ 24 * (s.byte (4 * i.val + 3)).toNat)

/-- R32: loading 48 bytes and storing gives them back, and storing a lane file and loading gives it back. -/
def Obligations.LoadAndStoreAreInverse : Prop :=
  (∀ b : List Byte, b.length = 48 → (Lanes.ofBytes b).toBytes = b) ∧ (∀ s : Lanes, Lanes.ofBytes s.toBytes = s)

/-- R33, R72, R73: XORing a byte at an offset below 48 changes that state byte only; XORing 48 bytes changes each by its own;
doing the latter twice restores the state. -/
def Obligations.XorsActByteByByte : Prop :=
  (∀ (s : Lanes) (b : Byte) (offset k : Nat), offset < 48 → k < 48 →
    (s.xorByteAt b offset).byte k = if k = offset then s.byte k ^^^ b else s.byte k) ∧
  (∀ (s : Lanes) (b : List Byte), b.length = 48 →
    (∀ k, k < 48 → (s.xorBytes b).byte k = s.byte k ^^^ b.getD k 0) ∧ (s.xorBytes b).xorBytes b = s)

/-! ### Codec commands (40_codec.md) -/

/-- R70: LOADBYTES. -/
def Obligations.LoadBytesReplacesTheLanes : Prop :=
  ∀ (len : Nat) (s : State), s.din.length = len →
    (len < 2 ^ 32 → decode (Fields.word ⟨0x01#8, 0, 0, 0, BitVec.ofNat 32 len⟩) = .ok (.loadBytes len)) ∧
    (len = 48 → ∃ L : Lanes,
      exec (.loadBytes len) s =
        .next { s with cyclist := { s.cyclist with lanes := L }, din := [], busy := .yes ⟨.ok, []⟩ } ∧
      ∀ i : Fin 12, L[i].toNat = (s.din.getD (4 * i.val) 0).toNat + 2 ^ 8 * (s.din.getD (4 * i.val + 1) 0).toNat +
        2 ^ 16 * (s.din.getD (4 * i.val + 2) 0).toNat + 2 ^ 24 * (s.din.getD (4 * i.val + 3) 0).toNat) ∧
    (len ≠ 48 →
      exec (.loadBytes len) s = .next { s with din := [], busy := .yes ⟨.error .invalidStateLength, []⟩ })

/-- R71: STOREBYTES. -/
def Obligations.StoreBytesReturnsTheState : Prop :=
  decode (Fields.word ⟨0x02#8, 0, 0, 0, 0⟩) = .ok .storeBytes ∧
  ∀ s : State, s.din = [] → ∃ dout : List Byte,
    exec .storeBytes s = .next { s with busy := .yes ⟨.ok, dout⟩ } ∧ dout.length = 48 ∧
    ∀ (i : Fin 12) (j : Nat), j < 4 →
      (dout.getD (4 * i.val + j) 0).toNat = s.cyclist.lanes[i].toNat / 2 ^ (8 * j) % 2 ^ 8

/-- R72: XORSTATEBYTES. -/
def Obligations.XorStateBytesMixesIn48Bytes : Prop :=
  ∀ (len : Nat) (s : State), s.din.length = len →
    (len < 2 ^ 32 → decode (Fields.word ⟨0x03#8, 0, 0, 0, BitVec.ofNat 32 len⟩) = .ok (.xorStateBytes len)) ∧
    (len = 48 → ∃ L M : Lanes,
      exec (.xorStateBytes len) s =
        .next { s with cyclist := { s.cyclist with lanes := L }, din := [], busy := .yes ⟨.ok, []⟩ } ∧
      ∀ i : Fin 12, L[i] = s.cyclist.lanes[i] ^^^ M[i] ∧
        M[i].toNat = (s.din.getD (4 * i.val) 0).toNat + 2 ^ 8 * (s.din.getD (4 * i.val + 1) 0).toNat +
          2 ^ 16 * (s.din.getD (4 * i.val + 2) 0).toNat + 2 ^ 24 * (s.din.getD (4 * i.val + 3) 0).toNat) ∧
    (len ≠ 48 →
      exec (.xorStateBytes len) s = .next { s with din := [], busy := .yes ⟨.error .invalidStateLength, []⟩ })

/-- R73: XORBYTEAT. -/
def Obligations.XorByteAtChangesOneByte : Prop :=
  ∀ (b : Byte) (offset : Nat) (s : State), s.din = [] →
    (offset < 2 ^ 8 → decode (Fields.word ⟨0x04#8, b, BitVec.ofNat 8 offset, 0, 0⟩) = .ok (.xorByteAt b offset)) ∧
    (offset < 48 → ∃ L : Lanes,
      exec (.xorByteAt b offset) s =
        .next { s with cyclist := { s.cyclist with lanes := L }, busy := .yes ⟨.ok, []⟩ } ∧
      ∀ i : Fin 12, L[i] =
        if i.val = offset / 4 then s.cyclist.lanes[i] ^^^ (b.setWidth 32 <<< (8 * (offset % 4))) else s.cyclist.lanes[i]) ∧
    (offset ≥ 48 →
      exec (.xorByteAt b offset) s = .next { s with busy := .yes ⟨.error .invalidOperand, []⟩ })

/-- R74: XOREXTRACT. -/
def Obligations.XorExtractReadsWithoutChange : Prop :=
  ∀ (n : Nat) (s : State), s.din.length = n →
    (n < 2 ^ 32 → decode (Fields.word ⟨0x05#8, 0, 0, 0, BitVec.ofNat 32 n⟩) = .ok (.xorExtract n)) ∧
    (n ≤ 48 → ∃ dout : List Byte,
      exec (.xorExtract n) s = .next { s with din := [], busy := .yes ⟨.ok, dout⟩ } ∧ dout.length = n ∧
      ∀ i, i < n → dout.getD i 0 = s.din.getD i 0 ^^^ s.cyclist.lanes.byte i) ∧
    (n > 48 → exec (.xorExtract n) s = .next { s with din := [], busy := .yes ⟨.error .invalidOperand, []⟩ })

/-! ### Permutation engine (41_permutation.md) -/

/-- R80: the round-constant table, and that bits 31:10 of every entry are zero. -/
def Obligations.RoundConstantsAreTheTable : Prop :=
  (List.range 12).map (fun i => (roundConstant i).toNat) =
    [0x58, 0x38, 0x3C0, 0xD0, 0x120, 0x14, 0x60, 0x2C, 0x380, 0xF0, 0x1A0, 0x12] ∧
  (∀ i, i < 12 → (roundConstant i).toNat < 2 ^ 10)

/-- R81, R82, R83, R84, R85, R86, in flat lane indices and with the library's rotation: the five steps of a round and their
order. -/
def Obligations.RoundStepsInFlatIndices : Prop :=
  ∀ s : Lanes,
    (∀ (y : Fin 3) (x : Fin 4), s.at y x = s[4 * y.val + x.val]) ∧
    (let P : Fin 4 → Lane := fun x => s[x.val] ^^^ s[4 + x.val] ^^^ s[8 + x.val]
     let E : Fin 4 → Lane := fun x => (P x).rotateLeft 5 ^^^ (P x).rotateLeft 14
     ∀ y : Fin 3,
      (theta s).at y 0 = s.at y 0 ^^^ E 3 ∧ (theta s).at y 1 = s.at y 1 ^^^ E 0 ∧
      (theta s).at y 2 = s.at y 2 ^^^ E 1 ∧ (theta s).at y 3 = s.at y 3 ^^^ E 2) ∧
    rhoWest s = #v[s[0], s[1], s[2], s[3], s[7], s[4], s[5], s[6], s[8].rotateLeft 11, s[9].rotateLeft 11,
      s[10].rotateLeft 11, s[11].rotateLeft 11] ∧
    (∀ i, i < 12 → iota i s = #v[s[0] ^^^ roundConstant i, s[1], s[2], s[3], s[4], s[5], s[6], s[7], s[8], s[9], s[10], s[11]]) ∧
    (∀ x : Fin 4,
      (chi s).at 0 x = s.at 0 x ^^^ (~~~s.at 1 x &&& s.at 2 x) ∧
      (chi s).at 1 x = s.at 1 x ^^^ (~~~s.at 2 x &&& s.at 0 x) ∧
      (chi s).at 2 x = s.at 2 x ^^^ (~~~s.at 0 x &&& s.at 1 x)) ∧
    rhoEast s = #v[s[0], s[1], s[2], s[3], s[4].rotateLeft 1, s[5].rotateLeft 1, s[6].rotateLeft 1, s[7].rotateLeft 1,
      s[10].rotateLeft 8, s[11].rotateLeft 8, s[8].rotateLeft 8, s[9].rotateLeft 8] ∧
    (∀ i, i < 12 → xoodooRound i s = rhoEast (chi (iota i (rhoWest (theta s)))))

/-- R87: exactly `r` rounds with indices `12 - r .. 11`; the composition law; two permutations in a row are not one. -/
def Obligations.PermuteAppliesTheLastRounds : Prop :=
  (∀ (r : Nat) (s : Lanes), r ≤ 12 →
    permute r s = (List.range r).foldl (fun l k => xoodooRound (12 - r + k) l) s) ∧
  (∀ (k r : Nat) (s : Lanes), k ≤ r → r ≤ 12 →
    permute r s = permute k ((List.range (r - k)).foldl (fun l j => xoodooRound (12 - r + j) l) s)) ∧
  (∃ s : Lanes, permute 1 (permute 1 s) ≠ permute 2 s)

/-- R87: `permute(r)` is a bijection on the 2^384 states. -/
def Obligations.PermutationIsABijection : Prop :=
  ∀ r : Nat, r ≤ 12 → Function.Bijective (permute r)

/-- R88: PERMUTE. -/
def Obligations.PermuteRunsOrRejects : Prop :=
  ∀ (r : Nat) (s : State), s.din = [] →
    (r < 2 ^ 8 → decode (Fields.word ⟨0x10#8, BitVec.ofNat 8 r, 0, 0, 0⟩) = .ok (.permute r)) ∧
    (r ≤ 12 → exec (.permute r) s =
      .next { s with cyclist := { s.cyclist with lanes := permute r s.cyclist.lanes }, busy := .yes ⟨.ok, []⟩ }) ∧
    (r = 0 → exec (.permute r) s = .next { s with busy := .yes ⟨.ok, []⟩ }) ∧
    (r > 12 → exec (.permute r) s = .next { s with busy := .yes ⟨.error .invalidRounds, []⟩ })

/-! ### Cyclist primitives (42_cyclist_primitives.md) -/

/-- R100, R106: DOWN, byte by byte. -/
def Obligations.DownMixesThePaddedBlock : Prop :=
  ∀ (cd : Byte) (len : Nat) (s : State), s.din.length = len →
    let bound := match s.cyclist.mode with
      | .hash => 47
      | .keyed => 44
    let domain := match s.cyclist.mode with
      | .hash => cd &&& 0x01#8
      | .keyed => cd
    (len < 2 ^ 32 → decode (Fields.word ⟨0x20#8, cd, 0, 0, BitVec.ofNat 32 len⟩) = .ok (.down cd len)) ∧
    (len ≤ bound → ∃ L : Lanes,
      exec (.down cd len) s =
        .next { s with cyclist := { s.cyclist with lanes := L, phase := .down }, din := [], busy := .yes ⟨.ok, []⟩ } ∧
      ∀ k, k < 48 → L.byte k = s.cyclist.lanes.byte k ^^^
        (if k < len then s.din.getD k 0 else if k = len then 0x01#8 else 0x00#8) ^^^ (if k = 47 then domain else 0x00#8)) ∧
    (len > bound → exec (.down cd len) s = .next { s with din := [], busy := .yes ⟨.error .invalidOperand, []⟩ })

/-- R101, R107: UP. -/
def Obligations.UpPermutesAndReturnsLeadingBytes : Prop :=
  ∀ (cu : Byte) (outLen : Nat) (s : State), s.din = [] →
    (outLen < 2 ^ 32 → decode (Fields.word ⟨0x21#8, cu, 0, 0, BitVec.ofNat 32 outLen⟩) = .ok (.up cu outLen)) ∧
    (outLen ≤ 48 → ∃ (L : Lanes) (dout : List Byte),
      exec (.up cu outLen) s =
        .next { s with cyclist := { s.cyclist with lanes := permute 12 L, phase := .up }, busy := .yes ⟨.ok, dout⟩ } ∧
      (∀ k, k < 48 → L.byte k =
        if k = 47 ∧ s.cyclist.mode = .keyed then s.cyclist.lanes.byte k ^^^ cu else s.cyclist.lanes.byte k) ∧
      dout.length = outLen ∧ ∀ k, k < outLen → dout.getD k 0 = (permute 12 L).byte k) ∧
    (outLen > 48 → exec (.up cu outLen) s = .next { s with busy := .yes ⟨.error .invalidOperand, []⟩ })

/-- R100 (b), R101 (a), R16: in Hash mode the Up byte is ignored and of the Down byte only bit 0 matters. -/
def Obligations.HashModeMasksDomainBytes : Prop :=
  ∀ s : State, s.cyclist.mode = .hash →
    (∀ (cu cu' : Byte) (n : Nat), exec (.up cu n) s = exec (.up cu' n) s ∧
      exec (.squeezeAny cu n) s = exec (.squeezeAny cu' n) s) ∧
    (∀ (cd cd' : Byte) (len rate : Nat), cd.getLsbD 0 = cd'.getLsbD 0 →
      exec (.down cd len) s = exec (.down cd' len) s ∧
      exec (.absorbBlock cd len) s = exec (.absorbBlock cd' len) s ∧
      exec (.absorbAny cd rate len) s = exec (.absorbAny cd' rate len) s)

/-- R102: AbsorbAny's walk, as its one-chunk case and its law for a longer string; the phase it ends in; how many Downs and Ups it
makes. -/
def Obligations.AbsorbAnyWalksItsChunks : Prop :=
  ∀ (x : List Byte) (rate : Nat) (cd : Byte) (c : Cyclist), rate ≥ 1 →
    let guarded := if c.phase ≠ .up then c.up 0x00#8 else c
    let calls := absorbCalls (absorbChunks rate x) cd c.phase
    (x.length ≤ rate → c.absorbAny x rate cd = guarded.down x cd) ∧
    (x.length > rate →
      c.absorbAny x rate cd = (guarded.down (x.take rate) cd).absorbAny (x.drop rate) rate 0x00#8) ∧
    (c.absorbAny x rate cd).phase = .down ∧
    c.absorbAny x rate cd = runCalls calls c ∧
    calls.countP Call.isDown = max 1 ((x.length + (rate - 1)) / rate) ∧
    calls.countP Call.isUp = calls.countP Call.isDown - (if c.phase = .up then 1 else 0)

/-- R103: SqueezeAny's walk: nothing for 0 bytes, one Up up to the rate, and the law for more; the phase it ends in; how many Downs
and Ups it makes; two squeezes in a row are not one. -/
def Obligations.SqueezeAnyWalksItsChunks : Prop :=
  (∀ (n : Nat) (cu : Byte) (c : Cyclist),
    let rate := c.rsqz.bytes
    let c' := c.up cu
    let calls := squeezeCalls (squeezeLengths rate n) cu
    (n = 0 → c.squeezeAny n cu = (c, [])) ∧
    (0 < n → n ≤ rate → c.squeezeAny n cu = (c', c'.lanes.memRead 0 n)) ∧
    (n > rate → c.squeezeAny n cu =
      (((c'.down [] 0x00#8).squeezeAny (n - rate) 0x00#8).1,
        c'.lanes.memRead 0 rate ++ ((c'.down [] 0x00#8).squeezeAny (n - rate) 0x00#8).2)) ∧
    (c.squeezeAny n cu).2.length = n ∧
    (c.squeezeAny n cu).1 = runCalls calls c ∧
    (n ≥ 1 → (c.squeezeAny n cu).1.phase = .up ∧ calls.countP Call.isUp = (n + (rate - 1)) / rate ∧
      calls.countP Call.isDown = calls.countP Call.isUp - 1)) ∧
  (∃ (c : Cyclist) (cu : Byte) (a b : Nat),
    (c.squeezeAny a cu).2 ++ ((c.squeezeAny a cu).1.squeezeAny b cu).2 ≠ (c.squeezeAny (a + b) cu).2)

/-- R104: Crypt's walk, 24 bytes a chunk in both modes, the plaintext absorbed; after each chunk the leading state bytes are the
ciphertext chunk; the length of the output, the phase it ends in, how many Downs and Ups it makes. -/
def Obligations.CryptWalksItsChunks : Prop :=
  ∀ (dir : Direction) (msg : List Byte) (c : Cyclist),
    let walk := fun (m : List Byte) (cu : Byte) (c : Cyclist) => Cyclist.cryptList dir (chunks 24 m) cu c
    let calls := cryptCalls dir (chunks 24 msg) 0x80#8 c
    c.crypt dir msg = walk msg 0x80#8 c ∧
    (∀ cu : Byte,
      (msg = [] → walk msg cu c = (c, [])) ∧
      (msg ≠ [] →
        let chunk := msg.take 24
        let c' := c.up cu
        let o := List.zipWith (fun x y => x ^^^ y) chunk (c'.lanes.memRead 0 chunk.length)
        let absorbed := c'.down (if dir = .encrypt then chunk else o) 0x00#8
        let next := walk (msg.drop 24) 0x00#8 absorbed
        walk msg cu c = (next.1, o ++ next.2) ∧
        absorbed.lanes.memRead 0 chunk.length = if dir = .encrypt then o else chunk)) ∧
    (c.crypt dir msg).2.length = msg.length ∧
    (msg ≠ [] → (c.crypt dir msg).1.phase = .down) ∧
    (c.crypt dir msg).1 = runCalls calls c ∧
    calls.countP Call.isUp = (msg.length + 23) / 24 ∧ calls.countP Call.isDown = (msg.length + 23) / 24

/-- R108: ABSORBANY. -/
def Obligations.AbsorbAnyCommandAbsorbs : Prop :=
  ∀ (cd : Byte) (rate len : Nat) (s : State), s.din.length = len →
    let bound := match s.cyclist.mode with
      | .hash => 47
      | .keyed => 44
    (rate < 2 ^ 8 → len < 2 ^ 32 →
      decode (Fields.word ⟨0x22#8, cd, BitVec.ofNat 8 rate, 0, BitVec.ofNat 32 len⟩) = .ok (.absorbAny cd rate len)) ∧
    (1 ≤ rate → rate ≤ bound → exec (.absorbAny cd rate len) s =
      .next { s with cyclist := s.cyclist.absorbAny s.din rate cd, din := [], busy := .yes ⟨.ok, []⟩ } ∧
      (s.cyclist.absorbAny s.din rate cd).phase = .down) ∧
    (rate = 0 ∨ rate > bound →
      exec (.absorbAny cd rate len) s = .next { s with din := [], busy := .yes ⟨.error .invalidOperand, []⟩ })

/-- R109: SQUEEZEANY. -/
def Obligations.SqueezeAnyCommandSqueezes : Prop :=
  ∀ (cu : Byte) (n : Nat) (s : State), s.din = [] →
    (n < 2 ^ 32 → decode (Fields.word ⟨0x23#8, cu, 0, 0, BitVec.ofNat 32 n⟩) = .ok (.squeezeAny cu n)) ∧
    exec (.squeezeAny cu n) s =
      .next { s with cyclist := (s.cyclist.squeezeAny n cu).1, busy := .yes ⟨.ok, (s.cyclist.squeezeAny n cu).2⟩ } ∧
    (s.cyclist.squeezeAny n cu).2.length = n ∧
    (s.cyclist.squeezeAny n cu).1.phase = (if n = 0 then s.cyclist.phase else .up) ∧
    (n = 0 → exec (.squeezeAny cu n) s = .next { s with busy := .yes ⟨.ok, []⟩ })

/-! ### Cyclist commands (43_cyclist_commands.md) -/

/-- R105, R120: INSTANTIATE. -/
def Obligations.InstantiateMakesAFreshInstance : Prop :=
  ∀ (idLen keyLen counterLen : Nat) (s : State), s.din.length = keyLen + idLen + counterLen →
    let zeros : Lanes := #v[0, 0, 0, 0, 0, 0, 0, 0, 0, 0, 0, 0]
    let key := s.din.take keyLen
    let id := (s.din.drop keyLen).take idLen
    let counter := s.din.drop (keyLen + idLen)
    let start : Cyclist := { lanes := zeros, mode := .keyed, phase := .up, rabs := .fortyFour, rsqz := .twentyFour }
    let keyed := start.down (key ++ id ++ [BitVec.ofNat 8 idLen]) 0x02#8
    (idLen < 2 ^ 8 → keyLen < 2 ^ 8 → counterLen < 2 ^ 32 →
      decode (Fields.word ⟨0x30#8, 0, BitVec.ofNat 8 idLen, BitVec.ofNat 8 keyLen, BitVec.ofNat 32 counterLen⟩) =
        .ok (.instantiate idLen keyLen counterLen)) ∧
    (keyLen = 0 → exec (.instantiate idLen keyLen counterLen) s =
      .next { s with
        cyclist := { lanes := zeros, mode := .hash, phase := .up, rabs := .sixteen, rsqz := .sixteen }
        din := [], busy := .yes ⟨.ok, []⟩ }) ∧
    (keyLen > 0 → keyLen + idLen < 44 → exec (.instantiate idLen keyLen counterLen) s =
      .next { s with
        cyclist := if counterLen = 0 then keyed else keyed.absorbAny counter 1 0x00#8
        din := [], busy := .yes ⟨.ok, []⟩ }) ∧
    (keyLen > 0 → keyLen + idLen ≥ 44 → exec (.instantiate idLen keyLen counterLen) s =
      .next { s with din := [], busy := .yes ⟨.error .keyTooLarge, []⟩ })

/-- R121: ABSORB. -/
def Obligations.AbsorbUsesTheInstanceRate : Prop :=
  ∀ (len : Nat) (s : State), s.din.length = len →
    let rate := match s.cyclist.rabs with
      | .sixteen => 16
      | .fortyFour => 44
    (len < 2 ^ 32 → decode (Fields.word ⟨0x31#8, 0, 0, 0, BitVec.ofNat 32 len⟩) = .ok (.absorb len)) ∧
    exec (.absorb len) s =
      .next { s with cyclist := s.cyclist.absorbAny s.din rate 0x03#8, din := [], busy := .yes ⟨.ok, []⟩ } ∧
    (s.cyclist.absorbAny s.din rate 0x03#8).phase = .down

/-- R124: ABSORBBLOCK. -/
def Obligations.AbsorbBlockGuardsThenDowns : Prop :=
  ∀ (cd : Byte) (len : Nat) (s : State), s.din.length = len →
    let rate := match s.cyclist.rabs with
      | .sixteen => 16
      | .fortyFour => 44
    let guarded := if s.cyclist.phase ≠ .up then s.cyclist.up 0x00#8 else s.cyclist
    (len < 2 ^ 32 → decode (Fields.word ⟨0x32#8, cd, 0, 0, BitVec.ofNat 32 len⟩) = .ok (.absorbBlock cd len)) ∧
    (len ≤ rate → exec (.absorbBlock cd len) s =
      .next { s with cyclist := guarded.down s.din cd, din := [], busy := .yes ⟨.ok, []⟩ }) ∧
    (len > rate →
      exec (.absorbBlock cd len) s = .next { s with din := [], busy := .yes ⟨.error .invalidOperand, []⟩ })

/-- R124: a sequence of ABSORBBLOCKs, full blocks and then the last one, first domain byte 0x03 and then 0x00, has the effect of
one ABSORB of their concatenation. -/
def Obligations.AbsorbBlockSequenceIsOneAbsorb : Prop :=
  ∀ (first : List Byte) (rest : List (List Byte)) (s : State),
    (∀ b ∈ (first :: rest).dropLast, b.length = s.cyclist.rabs.bytes) →
    (∀ b ∈ first :: rest, b.length ≤ s.cyclist.rabs.bytes) → (∀ b ∈ rest, b ≠ []) →
    HostSide.execAll ((.absorbBlock 0x03#8 first.length, first) ::
        rest.map fun b => (.absorbBlock 0x00#8 b.length, b)) s =
      exec (.absorb (first ++ rest.flatten).length) { s with din := first ++ rest.flatten }

/-- R125, R126: ENCRYPT and DECRYPT, in both modes. -/
def Obligations.EncryptAndDecryptRunCrypt : Prop :=
  ∀ (len : Nat) (s : State), s.din.length = len →
    let enc := s.cyclist.crypt .encrypt s.din
    let dec := s.cyclist.crypt .decrypt s.din
    (len < 2 ^ 32 → decode (Fields.word ⟨0x33#8, 0, 0, 0, BitVec.ofNat 32 len⟩) = .ok (.encrypt len) ∧
      decode (Fields.word ⟨0x34#8, 0, 0, 0, BitVec.ofNat 32 len⟩) = .ok (.decrypt len)) ∧
    exec (.encrypt len) s = .next { s with cyclist := enc.1, din := [], busy := .yes ⟨.ok, enc.2⟩ } ∧
    exec (.decrypt len) s = .next { s with cyclist := dec.1, din := [], busy := .yes ⟨.ok, dec.2⟩ } ∧
    enc.2.length = len ∧ dec.2.length = len ∧
    (len > 0 → enc.1.phase = .down ∧ dec.1.phase = .down) ∧
    (len = 0 → enc = (s.cyclist, []) ∧ dec = (s.cyclist, []))

/-- R126, R104 (d): if one core ENCRYPTs `pt` giving `ct`, a core in the same state that DECRYPTs `ct` returns `pt` and ends in the
same state. -/
def Obligations.DecryptUndoesEncrypt : Prop :=
  ∀ (len : Nat) (s t : State) (r : Response), exec (.encrypt len) s = .next t → t.busy = .yes r →
    exec (.decrypt len) { s with din := r.dout } = .next { t with busy := .yes ⟨.ok, s.din⟩ }

/-- R122: SQUEEZE. -/
def Obligations.SqueezeUsesItsDomainByte : Prop :=
  ∀ (n : Nat) (s : State), s.din = [] →
    let r := s.cyclist.squeezeAny n 0x40#8
    (n < 2 ^ 32 → decode (Fields.word ⟨0x35#8, 0, 0, 0, BitVec.ofNat 32 n⟩) = .ok (.squeeze n)) ∧
    exec (.squeeze n) s = .next { s with cyclist := r.1, busy := .yes ⟨.ok, r.2⟩ } ∧ r.2.length = n ∧
    r.1.phase = (if n = 0 then s.cyclist.phase else .up) ∧
    (n = 0 → exec (.squeeze n) s = .next { s with busy := .yes ⟨.ok, []⟩ })

/-- R123: SQUEEZEKEY, Keyed mode only. -/
def Obligations.SqueezeKeyNeedsKeyedMode : Prop :=
  ∀ (n : Nat) (s : State), s.din = [] →
    let r := s.cyclist.squeezeAny n 0x20#8
    (n < 2 ^ 32 → decode (Fields.word ⟨0x36#8, 0, 0, 0, BitVec.ofNat 32 n⟩) = .ok (.squeezeKey n)) ∧
    (s.cyclist.mode = .keyed →
      exec (.squeezeKey n) s = .next { s with cyclist := r.1, busy := .yes ⟨.ok, r.2⟩ } ∧ r.2.length = n ∧
      r.1.phase = (if n = 0 then s.cyclist.phase else .up)) ∧
    (s.cyclist.mode ≠ .keyed → exec (.squeezeKey n) s = .next { s with busy := .yes ⟨.error .modeViolation, []⟩ })

/-- R103, R151: a shorter squeeze from the same state returns a prefix of a longer one. -/
def Obligations.ShorterSqueezeIsAPrefix : Prop :=
  ∀ (cu : Byte) (a b : Nat) (s ta tb : State) (ra rb : Response), a ≤ b →
    exec (.squeezeAny cu a) s = .next ta → ta.busy = .yes ra → exec (.squeezeAny cu b) s = .next tb → tb.busy = .yes rb →
    ra.dout = rb.dout.take a

/-- R127: RATCHET, Keyed mode only: one Up with 0x10, then its first 16 bytes absorbed back: bytes 0..15 become 0, byte 16 is
XORed with 0x01, every other byte stays that of the Up. -/
def Obligations.RatchetClearsTheFirst16Bytes : Prop :=
  decode (Fields.word ⟨0x37#8, 0, 0, 0, 0⟩) = .ok .ratchet ∧
  ∀ s : State, s.din = [] →
    (s.cyclist.mode = .keyed → ∃ L : Lanes,
      exec .ratchet s =
        .next { s with cyclist := { s.cyclist with lanes := L, phase := .down }, busy := .yes ⟨.ok, []⟩ } ∧
      ∀ k, k < 48 → L.byte k =
        if k < 16 then 0x00#8
        else if k = 16 then (s.cyclist.up 0x10#8).lanes.byte k ^^^ 0x01#8
        else (s.cyclist.up 0x10#8).lanes.byte k) ∧
    (s.cyclist.mode ≠ .keyed → exec .ratchet s = .next { s with busy := .yes ⟨.error .modeViolation, []⟩ })

/-- R110: every primitive or Cyclist command that runs to its end changes the instance by its Down and Up calls only. -/
def Obligations.CommandsRunTheirDownAndUpCalls : Prop :=
  ∀ (i : Instr) (s t : State) (d : List Byte), i.tier ≠ .codec → exec i s = .next t → t.busy = .yes ⟨.ok, d⟩ →
    t.cyclist = runCalls (callsOf i s.din s.cyclist) (callsStart i s.cyclist)

/-- R128: the summary table: mode check, MODE and PHASE after, Downs and Ups of each Cyclist command that runs to its end. -/
def Obligations.CyclistCommandSummary : Prop :=
  ∀ (i : Instr) (s t : State) (d : List Byte), i.tier = .cyclist → exec i s = .next t → t.busy = .yes ⟨.ok, d⟩ →
    let P := if s.cyclist.phase = .down then 1 else 0
    let downs := (callsOf i s.din s.cyclist).countP Call.isDown
    let ups := (callsOf i s.din s.cyclist).countP Call.isUp
    let ceil := fun (n r : Nat) => (n + (r - 1)) / r
    let squeezed := fun (n : Nat) =>
      t.cyclist.mode = s.cyclist.mode ∧ t.cyclist.phase = (if n > 0 then .up else s.cyclist.phase) ∧
      downs = ceil n s.cyclist.rsqz.bytes - 1 ∧ ups = ceil n s.cyclist.rsqz.bytes
    let crypted := fun (n : Nat) =>
      t.cyclist.mode = s.cyclist.mode ∧ t.cyclist.phase = (if n > 0 then .down else s.cyclist.phase) ∧
      downs = ceil n 24 ∧ ups = ceil n 24
    match i with
    | .instantiate _ keyLen m =>
      if keyLen = 0 then t.cyclist.mode = .hash ∧ t.cyclist.phase = .up ∧ downs = 0 ∧ ups = 0
      else t.cyclist.mode = .keyed ∧ t.cyclist.phase = .down ∧ downs = 1 + m ∧ ups = m
    | .absorb n =>
      t.cyclist.mode = s.cyclist.mode ∧ t.cyclist.phase = .down ∧ downs = max 1 (ceil n s.cyclist.rabs.bytes) ∧
      ups = downs - 1 + P
    | .absorbBlock _ _ => t.cyclist.mode = s.cyclist.mode ∧ t.cyclist.phase = .down ∧ downs = 1 ∧ ups = P
    | .encrypt n => crypted n
    | .decrypt n => crypted n
    | .squeeze n => squeezed n
    | .squeezeKey n => s.cyclist.mode = .keyed ∧ squeezed n
    | .ratchet => s.cyclist.mode = .keyed ∧ t.cyclist.mode = .keyed ∧ t.cyclist.phase = .down ∧ downs = 1 ∧ ups = 1
    | _ => True

/-! ### Runs -/

/-- R207: every combination of lanes, MODE and PHASE is reached from reset by well-framed commands. -/
def Obligations.EveryLanesModePhaseIsReachable : Prop :=
  ∀ (L : Lanes) (m : Mode) (p : Phase), ∃ (inputs : List HostInput) (n : Nat) (t : State),
    inputs.all HostInput.wellFramed = true ∧
    Sys2Proof.core.run n ({ State.reset with inputs := inputs } : State) = .next t ∧
    t.cyclist = { lanes := L, mode := m, phase := p, rabs := m.absorbRate, rsqz := m.squeezeRate } ∧ t.busy = .no

/-- R209, R53 (the model's form of "stuck" is a fault, log 3): as long as the host supplies the bytes its words call for, a step
answers a next state, from which that still holds; so no run of any length stops. -/
def Obligations.WellFramedRunsNeverStop : Prop :=
  (∀ s : State, s.wellFramed = true → ∃ t, step s = .next t ∧ t.wellFramed = true) ∧
  (∀ (n : Nat) (s : State), s.wellFramed = true → SafeRun n s)

/-- R209, R50, and two choices of the model, two steps a command (log 1) and a command presented while BUSY held off (log 2): a
well-framed command presented to an idle core is executed
by one step, which leaves the core busy with its response `r`, and, if no reset comes between, the next step delivers `r`: the
host has exactly `r` more, the instance is the one the command left, the core is idle, and a command presented meanwhile is still
presented (log 2). -/
def Obligations.AcceptedCommandIsAnswered : Prop :=
  ∀ (s : State) (cw : CommandWord) (din : List Byte) (rest : List HostInput),
    s.busy = .no → s.inputs = .command cw din :: rest → din.length = dinLengthOfWord cw →
    ({ s with inputs := rest } : State).noResetNext = true →
    ∃ (u t : State) (r : Response),
      step s = .next u ∧ runCommand cw { s with din := din, inputs := rest } = .next u ∧ u.busy = .yes r ∧
      Sys2Proof.core.run 2 s = .next t ∧ t.busy = .no ∧ t.received = s.received ++ [r] ∧ t.cyclist = u.cyclist ∧
      (t.inputs = rest ∨ rest = .nothing :: t.inputs)

/-! ### Host side (44_host_sequences.md) -/

/-- R154, R156, R157: on a tag mismatch the host discards the recovered bytes and reports AuthenticationFailed; on a match it
releases them. That Open then returns `dst || pt` is the model's choice (log 17). -/
def Obligations.TagMismatchReleasesNoPlaintext : Prop :=
  ∀ (dst tag : List Byte) (r1 r2 r3 r4 : Response),
    (r4.dout ≠ tag → HostSide.decryptResult tag [r1, r2, r3, r4] = some ([], false) ∧
      HostSide.openResult dst tag [r1, r2, r3, r4] = some (.error .authenticationFailed)) ∧
    (r4.dout = tag → HostSide.decryptResult tag [r1, r2, r3, r4] = some (r3.dout, true) ∧
      HostSide.openResult dst tag [r1, r2, r3, r4] = some (.ok (dst ++ r3.dout)))
end

