-- ==== Sys2Proof/Laws/State.lean ====
section
/-! SUPPORT. One lemma per field per update of the state and of the Cyclist instance, each true by rfl. -/

namespace Sys2Proof.Machine

section Transaction

variable (c : Cyclist) (dout : List Byte) (e : ErrorKind) (din : List Byte) (rest : List HostInput) (s : State) (r : Response)

@[simp] theorem complete_cyclist : (complete c dout s).cyclist = c := rfl
@[simp] theorem complete_busy : (complete c dout s).busy = .yes ⟨.ok, dout⟩ := rfl
@[simp] theorem complete_din : (complete c dout s).din = [] := rfl
@[simp] theorem complete_inputs : (complete c dout s).inputs = s.inputs := rfl
@[simp] theorem complete_received : (complete c dout s).received = s.received := rfl

@[simp] theorem reject_cyclist : (reject e s).cyclist = s.cyclist := rfl
@[simp] theorem reject_busy : (reject e s).busy = .yes ⟨.error e, []⟩ := rfl
@[simp] theorem reject_din : (reject e s).din = [] := rfl
@[simp] theorem reject_inputs : (reject e s).inputs = s.inputs := rfl
@[simp] theorem reject_received : (reject e s).received = s.received := rfl

@[simp] theorem accept_cyclist : (accept din rest s).cyclist = s.cyclist := rfl
@[simp] theorem accept_busy : (accept din rest s).busy = s.busy := rfl
@[simp] theorem accept_din : (accept din rest s).din = din := rfl
@[simp] theorem accept_inputs : (accept din rest s).inputs = rest := rfl
@[simp] theorem accept_received : (accept din rest s).received = s.received := rfl

@[simp] theorem applyReset_cyclist : (applyReset rest s).cyclist = Cyclist.fresh := rfl
@[simp] theorem applyReset_busy : (applyReset rest s).busy = .no := rfl
@[simp] theorem applyReset_din : (applyReset rest s).din = [] := rfl
@[simp] theorem applyReset_inputs : (applyReset rest s).inputs = rest := rfl
@[simp] theorem applyReset_received : (applyReset rest s).received = s.received := rfl

@[simp] theorem deliver_cyclist : (deliver s).cyclist = s.cyclist := by unfold deliver; split <;> rfl
@[simp] theorem deliver_busy : (deliver s).busy = .no := by unfold deliver; split <;> trivial
@[simp] theorem deliver_din : (deliver s).din = s.din := by unfold deliver; split <;> rfl
@[simp] theorem deliver_inputs : (deliver s).inputs = s.inputs := by unfold deliver; split <;> rfl

theorem deliver_of_idle (h : s.busy = .no) : deliver s = s := by simp [deliver, h]

theorem deliver_of_busy (h : s.busy = .yes r) :
    deliver s = { s with busy := .no, received := s.received ++ [r] } := by simp [deliver, h]

end Transaction

section Instance

variable (c : Cyclist) (block : List Byte) (cd cu : Byte)

@[simp] theorem down_lanes : (c.down block cd).lanes = c.lanes.xorBytes (downBuffer c.mode block cd) := rfl
@[simp] theorem down_mode : (c.down block cd).mode = c.mode := rfl
@[simp] theorem down_phase : (c.down block cd).phase = .down := rfl
@[simp] theorem down_rabs : (c.down block cd).rabs = c.rabs := rfl
@[simp] theorem down_rsqz : (c.down block cd).rsqz = c.rsqz := rfl

@[simp] theorem up_lanes : (c.up cu).lanes = permute Config.maxRounds (c.beforeUp cu) := rfl
@[simp] theorem up_mode : (c.up cu).mode = c.mode := rfl
@[simp] theorem up_phase : (c.up cu).phase = .up := rfl
@[simp] theorem up_rabs : (c.up cu).rabs = c.rabs := rfl
@[simp] theorem up_rsqz : (c.up cu).rsqz = c.rsqz := rfl

@[simp] theorem enterKeyed_lanes : c.enterKeyed.lanes = c.lanes := rfl
@[simp] theorem enterKeyed_mode : c.enterKeyed.mode = .keyed := rfl
@[simp] theorem enterKeyed_phase : c.enterKeyed.phase = c.phase := rfl
@[simp] theorem enterKeyed_rabs : c.enterKeyed.rabs = .fortyFour := rfl
@[simp] theorem enterKeyed_rsqz : c.enterKeyed.rsqz = .twentyFour := rfl

@[simp] theorem fresh_mode : Cyclist.fresh.mode = .hash := rfl
@[simp] theorem fresh_phase : Cyclist.fresh.phase = .up := rfl
@[simp] theorem fresh_rabs : Cyclist.fresh.rabs = .sixteen := rfl
@[simp] theorem fresh_rsqz : Cyclist.fresh.rsqz = .sixteen := rfl

end Instance

end Sys2Proof.Machine
end

