-- ==== Sys2Proof/Laws/Ops.lean ====
section
/-! SUPPORT. What the shared operations can do, said once each: the transaction, the lane file and its byte view, the step. -/

namespace Sys2Proof.Machine

section Transact

@[simp] theorem conclude_ok (c : Cyclist) (dout : List Byte) (s : State) :
    conclude (.ok (c, dout)) s = complete c dout s := rfl

@[simp] theorem conclude_error (e : ErrorKind) (s : State) : conclude (.error e) s = reject e s := rfl

variable {n : Nat} {body : List Byte → Cyclist → Except ErrorKind (Cyclist × List Byte)} {s t : State}

/-- A well-framed transaction answers a next state: completion or rejection. -/
theorem transact_of_length (h : s.din.length = n) :
    transact n body s = .next (conclude (body s.din s.cyclist) s) := by
  simp [transact, h]

/-- A malformed transaction faults. -/
theorem transact_of_length_ne (h : s.din.length ≠ n) : transact n body s = .fault .malformedTransaction := by
  simp [transact, h]

/-- Everything a transaction that answers a next state can have done. -/
theorem transact_cases (h : transact n body s = .next t) :
    s.din.length = n ∧
      ((∃ c dout, body s.din s.cyclist = .ok (c, dout) ∧ t = complete c dout s) ∨
        ∃ e, body s.din s.cyclist = .error e ∧ t = reject e s) := by
  by_cases hn : s.din.length = n
  · rw [transact_of_length hn] at h
    refine ⟨hn, ?_⟩
    cases hb : body s.din s.cyclist with
    | ok r =>
      rw [hb] at h
      cases h
      exact .inl ⟨r.1, r.2, rfl, rfl⟩
    | error e =>
      rw [hb] at h
      cases h
      exact .inr ⟨e, rfl, rfl⟩
  · rw [transact_of_length_ne hn] at h
    cases h

/-- A transaction is never refused. -/
theorem transact_ne_refused (r : Refusal) : transact n body s ≠ .refused r := by
  unfold transact
  split <;> simp

end Transact

section LaneFile

/-- `A[y][x]` of the lane file made from a function of plane and lane index is that function's value. -/
@[simp] theorem at_ofPlanes (f : Fin 3 → Fin 4 → Lane) (y : Fin 3) (x : Fin 4) :
    (Lanes.ofPlanes f).at y x = f y x := by
  fin_cases y <;> fin_cases x <;> rfl

/-- Two lane files with the same `A[y][x]` everywhere are the same (R11). -/
theorem lanes_ext {s t : Lanes} (h : ∀ y x, s.at y x = t.at y x) : s = t := by
  refine Vector.ext fun i hi => ?_
  have hy : i / 4 < 3 := by omega
  have hx : i % 4 < 4 := by omega
  have := h ⟨i / 4, hy⟩ ⟨i % 4, hx⟩
  simp only [Lanes.at] at this
  have e : 4 * (i / 4) + i % 4 = i := by omega
  simpa only [e] using this

/-- A lane file read outside its twelve lanes reads as zero. -/
theorem getD_eq_getElem (s : Lanes) {i : Nat} (h : i < 12) : s.getD i 0 = s[i] := by
  simp [Vector.getD, h]

/-- Byte `j` of the little-endian lane made of bytes `4i .. 4i+3` is byte `4i + j` (R31). -/
theorem extract_leLane (b : List Byte) (i j : Nat) (hj : j < 4) :
    (leLane b i).extractLsb' (8 * j) 8 = b.getD (4 * i + j) 0 := by
  unfold leLane
  rcases (by omega : j = 0 ∨ j = 1 ∨ j = 2 ∨ j = 3) with rfl | rfl | rfl | rfl <;>
    · refine BitVec.eq_of_getLsbD_eq fun k hk => ?_
      simp only [BitVec.getLsbD_extractLsb', BitVec.getLsbD_append, hk, decide_true, Bool.true_and]
      interval_cases k <;> simp

end LaneFile

end Sys2Proof.Machine
end

