-- ==== Sys2Proof/Laws/Encoding.lean ====
section
/-! SUPPORT. Packing and unpacking the fields of a command word (R51). -/

namespace Sys2Proof

/-- A word is made of its own fields. -/
@[simp] theorem word_fieldsOf (cw : CommandWord) : (fieldsOf cw).word = cw := by
  unfold Fields.word fieldsOf
  refine BitVec.eq_of_getLsbD_eq fun i hi => ?_
  simp only [BitVec.getLsbD_append, BitVec.getLsbD_extractLsb']
  interval_cases i <;> simp

/-- The fields of a packed word are those it was packed from. -/
@[simp] theorem fieldsOf_word (f : Fields) : fieldsOf f.word = f := by
  cases f with | mk opc a b c len =>
  unfold Fields.word fieldsOf
  simp only [Fields.mk.injEq]
  refine ⟨?_, ?_, ?_, ?_, ?_⟩ <;> refine BitVec.eq_of_getLsbD_eq fun i hi => ?_ <;>
    simp only [BitVec.getLsbD_append, BitVec.getLsbD_extractLsb'] <;> interval_cases i <;> simp

/-- A mask applies field by field. -/
theorem and_word (f m : Fields) :
    f.word &&& m.word = Fields.word ⟨f.opc &&& m.opc, f.a &&& m.a, f.b &&& m.b, f.c &&& m.c, f.len &&& m.len⟩ := by
  unfold Fields.word
  refine BitVec.eq_of_getLsbD_eq fun i hi => ?_
  simp only [BitVec.getLsbD_and, BitVec.getLsbD_append]
  repeat' split
  all_goals rfl

/-- A row whose mask and pattern are packed from fields selects a word exactly when the masked fields are the pattern's. -/
theorem selects_word {row : OpcodeRow} {m p f : Fields} (hm : row.mask = m.word) (hp : row.pattern = p.word) :
    row.selects f.word = true ↔ Fields.mk (f.opc &&& m.opc) (f.a &&& m.a) (f.b &&& m.b) (f.c &&& m.c) (f.len &&& m.len) = p := by
  unfold OpcodeRow.selects
  rw [hm, hp, and_word, beq_iff_eq]
  constructor
  · intro h
    have := congrArg fieldsOf h
    simpa only [fieldsOf_word] using this
  · intro h
    rw [h]

end Sys2Proof
end

