-- ==== Sys2Proof/Laws/Exec.lean ====
section
/-! SUPPORT. Every command is one transaction: what `exec` can do, said once, and what `step` can do, said once. -/

namespace Sys2Proof.Machine

/-- What a command does with its data in and the instance, apart from the transaction around it. -/
def bodyOf (i : Instr) (din : List Byte) (c : Cyclist) : Except ErrorKind (Cyclist × List Byte) :=
  match i with
  | .loadBytes len =>
    if len ≠ Config.stateBytes then .error .invalidStateLength else .ok ({ c with lanes := Lanes.ofBytes din }, [])
  | .storeBytes => .ok (c, c.lanes.toBytes)
  | .xorStateBytes len =>
    if len ≠ Config.stateBytes then .error .invalidStateLength else .ok ({ c with lanes := c.lanes.xorBytes din }, [])
  | .xorByteAt b offset =>
    if offset ≥ Config.stateBytes then .error .invalidOperand
    else .ok ({ c with lanes := c.lanes.xorByteAt b offset }, [])
  | .xorExtract n => if n > Config.stateBytes then .error .invalidOperand else .ok (c, c.lanes.xorExtract din)
  | .permute r =>
    if r > Config.maxRounds then .error .invalidRounds else .ok ({ c with lanes := permute r c.lanes }, [])
  | .down cd len => if len > c.mode.maxBlock then .error .invalidOperand else .ok (c.down din cd, [])
  | .up cu outLen =>
    if outLen > Config.stateBytes then .error .invalidOperand else .ok (c.up cu, (c.up cu).output outLen)
  | .absorbAny cdFirst rate _ =>
    if rate = 0 then .error .invalidOperand
    else if rate > c.mode.maxBlock then .error .invalidOperand
    else .ok (c.absorbAny din rate cdFirst, [])
  | .squeezeAny cuFirst outLen => .ok (c.squeezeAny outLen cuFirst)
  | .instantiate idLen keyLen counterLen =>
    if keyLen > 0 ∧ keyLen + idLen ≥ Config.rkin then .error .keyTooLarge
    else .ok (instantiated (keyOf keyLen din) (idOf keyLen idLen din) (counterOf keyLen idLen counterLen din), [])
  | .absorb _ => .ok (c.absorbAny din c.rabs.bytes Config.absorbCdInit, [])
  | .absorbBlock cd len => if len > c.rabs.bytes then .error .invalidOperand else .ok (c.absorbOne din cd, [])
  | .encrypt _ => .ok (c.crypt .encrypt din)
  | .decrypt _ => .ok (c.crypt .decrypt din)
  | .squeeze n => .ok (c.squeezeAny n Config.squeezeCuInit)
  | .squeezeKey n =>
    match c.mode with
    | .hash => .error .modeViolation
    | .keyed => .ok (c.squeezeAny n Config.squeezeKeyCu)
  | .ratchet =>
    match c.mode with
    | .hash => .error .modeViolation
    | .keyed => .ok (c.ratchet, [])

/-- Every command is the transaction of its body, with the data-in length its word fixes (R50, R53). -/
theorem exec_eq_transact (i : Instr) (s : State) : exec i s = transact (dinLength i) (bodyOf i) s := by
  cases i <;> rfl

/-- A well-framed command completes with what its body gives, or is rejected with the error it raises. -/
theorem exec_of_length {i : Instr} {s : State} (h : s.din.length = dinLength i) :
    exec i s = .next (conclude (bodyOf i s.din s.cyclist) s) := by
  rw [exec_eq_transact, transact_of_length h]

/-- Everything a command that answers a next state can have done. -/
theorem exec_cases {i : Instr} {s t : State} (h : exec i s = .next t) :
    s.din.length = dinLength i ∧
      ((∃ c dout, bodyOf i s.din s.cyclist = .ok (c, dout) ∧ t = complete c dout s) ∨
        ∃ e, bodyOf i s.din s.cyclist = .error e ∧ t = reject e s) :=
  transact_cases (exec_eq_transact i s ▸ h)

/-- Everything a step can do, by what the host presents. -/
theorem step_cases (s : State) :
    (s.inputs = [] ∧ step s = .next (deliver s)) ∨
    (∃ rest, s.inputs = .nothing :: rest ∧ step s = .next (deliver { s with inputs := rest })) ∨
    (∃ rest, s.inputs = .reset :: rest ∧ step s = .next (applyReset rest s)) ∨
    (∃ cw din rest r, s.inputs = .command cw din :: rest ∧ s.busy = .yes r ∧ step s = .next (deliver s)) ∨
    (∃ cw din rest i, s.inputs = .command cw din :: rest ∧ s.busy = .no ∧ decode cw = .ok i ∧
      step s = exec i (accept din rest s)) ∨
    (∃ cw din rest e, s.inputs = .command cw din :: rest ∧ s.busy = .no ∧ decode cw = .error e ∧
      step s = rejectIllegal (accept din rest s)) := by
  unfold step
  rcases hi : s.inputs with _ | ⟨_ | _ | _, rest⟩
  · simp
  · rename_i cw din
    cases hb : s.busy with
    | yes r => simp
    | no => cases hd : decode cw <;> simp [runCommand, hd]
  · simp
  · simp

/-- A run goes on from the state its first step answers. -/
theorem run_succ {n : Nat} {s t : State} (h : step s = .next t) : Sys2Proof.core.run (n + 1) s = Sys2Proof.core.run n t := by
  have h' : Sys2Proof.core.step s = .next t := h
  simp only [Host.Core.run, h']

@[simp] theorem run_zero (s : State) : Sys2Proof.core.run 0 s = .next s := rfl

end Sys2Proof.Machine
end

