-- ==== Sys2Proof/Laws/ByteView.lean ====
section
/-! SUPPORT. The lane file read byte by byte (R31): what each operation on it does to one byte. -/

namespace Sys2Proof.Machine

/-- Byte `j` of lane `i` of a lane file (R31). -/
theorem byte_eq (s : Lanes) {i j : Nat} (hi : i < 12) (hj : j < 4) : s.byte (4 * i + j) = s[i].extractLsb' (8 * j) 8 := by
  unfold Lanes.byte
  rw [show (4 * i + j) / 4 = i by omega, show (4 * i + j) % 4 = j by omega, getD_eq_getElem s hi]

/-- A 32-bit word is the little-endian word of its four bytes. -/
theorem lane_ext {v w : Lane} (h : ∀ j, j < 4 → v.extractLsb' (8 * j) 8 = w.extractLsb' (8 * j) 8) : v = w := by
  refine BitVec.eq_of_getLsbD_eq fun k hk => ?_
  have := congrArg (fun b => b.getLsbD (k % 8)) (h (k / 8) (by omega))
  simp only [BitVec.getLsbD_extractLsb', Nat.mod_lt k (by decide : 8 > 0), decide_true, Bool.true_and,
    Nat.div_add_mod] at this
  exact this

/-- Two lane files with the same 48 bytes are the same (R32). -/
theorem lanes_ext_byte {s t : Lanes} (h : ∀ k, k < 48 → s.byte k = t.byte k) : s = t := by
  refine Vector.ext fun i hi => lane_ext fun j hj => ?_
  rw [← byte_eq s hi hj, ← byte_eq t hi hj]
  exact h _ (by omega)

/-- A property of the 48 bytes, shown lane by lane. -/
theorem forall_byte {P : Nat → Prop} (h : ∀ i j, i < 12 → j < 4 → P (4 * i + j)) {k : Nat} (hk : k < 48) : P k := by
  have := h (k / 4) (k % 4) (by omega) (by omega)
  rwa [Nat.div_add_mod] at this

/-- The bytes a read of the lane file returns (00_scope.md section 5). -/
theorem memRead_getD (s : Lanes) (k n j : Nat) (h : j < n) : (s.memRead k n).getD j 0 = s.byte (k + j) := by
  simp [Lanes.memRead, h]

@[simp] theorem memRead_length (s : Lanes) (k n : Nat) : (s.memRead k n).length = n := by simp [Lanes.memRead]

@[simp] theorem toBytes_length (s : Lanes) : s.toBytes.length = 48 := memRead_length _ _ _

@[simp] theorem output_length (c : Cyclist) (n : Nat) : (c.output n).length = n := memRead_length _ _ _

@[simp] theorem xorExtract_length (s : Lanes) (b : List Byte) : (s.xorExtract b).length = b.length := by
  simp [Lanes.xorExtract]

/-- The bytes of the whole lane file (R71). -/
theorem toBytes_getD (s : Lanes) {k : Nat} (h : k < 48) : s.toBytes.getD k 0 = s.byte k := by
  rw [Lanes.toBytes, memRead_getD s 0 Config.stateBytes k h, Nat.zero_add]

/-- A shorter read at the same place is a prefix of a longer one. -/
theorem memRead_take (s : Lanes) (k : Nat) {a b : Nat} (h : a ≤ b) : (s.memRead k b).take a = s.memRead k a := by
  unfold Lanes.memRead
  rw [← List.map_take, List.take_range, Nat.min_eq_left h]

end Sys2Proof.Machine
end

