-- ==== Sys2Proof/Laws/Duplex.lean ====
section
/-! SUPPORT. What the internal operations of the Cyclist leave alone (MODE and the two rates), and the phase they end in. -/

namespace Sys2Proof.Machine

section Equations

variable (block : List Byte) (blocks : List (List Byte)) (cd cu : Byte) (n : Nat) (ns : List Nat) (dir : Direction) (c : Cyclist)

/-! The equations of the loops, with no permutation unfolded: cite these, since unfolding `Cyclist.up` in the kernel runs it. -/

theorem absorbList_nil : Cyclist.absorbList [] cd c = c := rfl

theorem absorbList_cons : Cyclist.absorbList (block :: blocks) cd c =
    Cyclist.absorbList blocks Config.absorbCdMain (c.absorbOne block cd) := rfl

theorem squeezeMore_nil : Cyclist.squeezeMore [] c = (c, []) := rfl

theorem squeezeMore_cons : Cyclist.squeezeMore (n :: ns) c =
    ((Cyclist.squeezeMore ns ((c.down [] 0x00#8).up 0x00#8)).1,
      ((c.down [] 0x00#8).up 0x00#8).output n ++ (Cyclist.squeezeMore ns ((c.down [] 0x00#8).up 0x00#8)).2) := rfl

theorem squeezeList_nil : Cyclist.squeezeList [] cu c = (c, []) := rfl

theorem squeezeList_cons : Cyclist.squeezeList (n :: ns) cu c =
    ((Cyclist.squeezeMore ns (c.up cu)).1, (c.up cu).output n ++ (Cyclist.squeezeMore ns (c.up cu)).2) := rfl

theorem cryptList_nil : Cyclist.cryptList dir [] cu c = (c, []) := rfl

theorem cryptList_cons : Cyclist.cryptList dir (block :: blocks) cu c =
    ((Cyclist.cryptList dir blocks Config.cryptCuMain
        ((c.up cu).down (dir.plaintext block ((c.up cu).lanes.xorExtract block)) Config.cryptCd)).1,
      (c.up cu).lanes.xorExtract block ++
        (Cyclist.cryptList dir blocks Config.cryptCuMain
          ((c.up cu).down (dir.plaintext block ((c.up cu).lanes.xorExtract block)) Config.cryptCd)).2) := rfl

end Equations

/-- Two instances with the same MODE, RABS and RSQZ. -/
structure SameControl (c d : Cyclist) : Prop where
  /-- The same mode. -/
  mode : c.mode = d.mode
  /-- The same absorb rate. -/
  rabs : c.rabs = d.rabs
  /-- The same squeeze rate. -/
  rsqz : c.rsqz = d.rsqz

theorem SameControl.refl (c : Cyclist) : SameControl c c := ⟨rfl, rfl, rfl⟩

theorem SameControl.trans {a b c : Cyclist} (h : SameControl a b) (k : SameControl b c) : SameControl a c :=
  ⟨h.mode.trans k.mode, h.rabs.trans k.rabs, h.rsqz.trans k.rsqz⟩

/-- Down keeps MODE and the rates (R100). -/
theorem sameControl_down (block : List Byte) (cd : Byte) (c : Cyclist) : SameControl (c.down block cd) c := ⟨rfl, rfl, rfl⟩

/-- Up keeps MODE and the rates (R101). -/
theorem sameControl_up (cu : Byte) (c : Cyclist) : SameControl (c.up cu) c := ⟨rfl, rfl, rfl⟩

theorem sameControl_guardUp (c : Cyclist) : SameControl c.guardUp c := by
  unfold Cyclist.guardUp
  split
  · exact .refl _
  · exact sameControl_up _ _

@[simp] theorem guardUp_phase (c : Cyclist) : c.guardUp.phase = .up := by
  unfold Cyclist.guardUp
  split
  · assumption
  · rfl

theorem sameControl_absorbOne (block : List Byte) (cd : Byte) (c : Cyclist) : SameControl (c.absorbOne block cd) c :=
  (sameControl_down _ _ _).trans (sameControl_guardUp c)

theorem sameControl_absorbList (bs : List (List Byte)) (cd : Byte) (c : Cyclist) :
    SameControl (Cyclist.absorbList bs cd c) c := by
  induction bs generalizing cd c with
  | nil => exact .refl _
  | cons b bs ih => exact (ih _ _).trans (sameControl_absorbOne _ _ _)

/-- AbsorbAny keeps MODE and the rates (R102). -/
theorem sameControl_absorbAny (x : List Byte) (rate : Nat) (cd : Byte) (c : Cyclist) :
    SameControl (c.absorbAny x rate cd) c := sameControl_absorbList _ _ _

/-- Absorbing at least one chunk ends in phase Down. -/
theorem absorbList_phase (bs : List (List Byte)) (cd : Byte) (c : Cyclist) (h : bs ≠ []) :
    (Cyclist.absorbList bs cd c).phase = .down := by
  induction bs generalizing cd c with
  | nil => exact absurd rfl h
  | cons b bs ih =>
    cases bs with
    | nil => rfl
    | cons b' bs' => exact ih _ _ (List.cons_ne_nil _ _)

/-- There is always a chunk to absorb (R102). -/
theorem absorbChunks_ne_nil (rate : Nat) (x : List Byte) : absorbChunks rate x ≠ [] := by
  cases x <;> simp [absorbChunks, chunks, chunksFrom]

/-- AbsorbAny ends in phase Down (R102). -/
theorem absorbAny_phase (x : List Byte) (rate : Nat) (cd : Byte) (c : Cyclist) : (c.absorbAny x rate cd).phase = .down :=
  absorbList_phase _ _ _ (absorbChunks_ne_nil _ _)

theorem sameControl_squeezeMore (ns : List Nat) (c : Cyclist) : SameControl (Cyclist.squeezeMore ns c).1 c := by
  induction ns generalizing c with
  | nil => exact .refl _
  | cons n ns ih => exact (ih _).trans ⟨rfl, rfl, rfl⟩

/-- SqueezeAny keeps MODE and the rates (R103). -/
theorem sameControl_squeezeAny (n : Nat) (cu : Byte) (c : Cyclist) : SameControl (c.squeezeAny n cu).1 c := by
  unfold Cyclist.squeezeAny
  cases squeezeLengths c.rsqz.bytes n with
  | nil => exact .refl _
  | cons m ms => exact (sameControl_squeezeMore _ _).trans ⟨rfl, rfl, rfl⟩

/-- Crypt keeps MODE and the rates (R104). -/
theorem sameControl_cryptList (dir : Direction) (bs : List (List Byte)) (cu : Byte) (c : Cyclist) :
    SameControl (Cyclist.cryptList dir bs cu c).1 c := by
  induction bs generalizing cu c with
  | nil => exact .refl _
  | cons b bs ih => exact (ih _ _).trans ⟨rfl, rfl, rfl⟩

/-- Ratchet keeps MODE and the rates (R127). -/
theorem sameControl_ratchet (c : Cyclist) : SameControl c.ratchet c :=
  (sameControl_absorbAny _ _ _ _).trans (sameControl_squeezeAny _ _ _)

/-- AbsorbKey leaves the instance in Keyed mode with the Keyed rates (R105). -/
theorem sameControl_absorbKey (key id counter : List Byte) (c : Cyclist) :
    SameControl (c.absorbKey key id counter) c.enterKeyed := by
  unfold Cyclist.absorbKey Cyclist.absorbCounter
  split
  · exact sameControl_absorbAny _ _ _ _
  · exact (sameControl_absorbAny _ _ _ _).trans (sameControl_absorbAny _ _ _ _)

end Sys2Proof.Machine
end

