-- ==== Sys2Proof/Laws/Chunks.lean ====
section
/-! SUPPORT. The chunks of a byte string and of an output length: the fuel of their recursion is always enough. -/

namespace Sys2Proof.Machine

variable {rate : Nat}

/-- More fuel than bytes changes nothing. -/
theorem chunksFrom_fuel (hr : 1 ≤ rate) {x : List Byte} {f g : Nat} (hf : x.length ≤ f) (hg : x.length ≤ g) :
    chunksFrom rate f x = chunksFrom rate g x := by
  induction f generalizing g x with
  | zero =>
    obtain rfl : x = [] := List.length_eq_zero_iff.1 (by omega)
    cases g <;> rfl
  | succ f ih =>
    cases x with
    | nil => cases g <;> rfl
    | cons b bs =>
      cases g with
      | zero => simp at hg
      | succ g =>
        simp only [chunksFrom]
        rw [ih] <;> (simp only [List.length_drop, List.length_cons] at *; omega)

@[simp] theorem chunks_nil : chunks rate [] = [] := rfl

/-- The first chunk and the rest (R102, R104). -/
theorem chunks_of_ne_nil (hr : 1 ≤ rate) {x : List Byte} (hx : x ≠ []) :
    chunks rate x = x.take rate :: chunks rate (x.drop rate) := by
  cases x with
  | nil => exact absurd rfl hx
  | cons b bs =>
    simp only [chunks, List.length_cons, chunksFrom]
    congr 1
    refine chunksFrom_fuel hr ?_ ?_ <;> (simp only [List.length_drop, List.length_cons]; omega)

/-- More fuel than bytes of output changes nothing. -/
theorem lengthsFrom_fuel (hr : 1 ≤ rate) {n f g : Nat} (hf : n ≤ f) (hg : n ≤ g) :
    lengthsFrom rate f n = lengthsFrom rate g n := by
  induction f generalizing g n with
  | zero =>
    obtain rfl : n = 0 := by omega
    cases g <;> rfl
  | succ f ih =>
    cases n with
    | zero => cases g <;> rfl
    | succ n =>
      cases g with
      | zero => omega
      | succ g =>
        simp only [lengthsFrom]
        rw [ih] <;> omega

@[simp] theorem squeezeLengths_zero : squeezeLengths rate 0 = [] := rfl

/-- The first output length and the rest (R103). -/
theorem squeezeLengths_of_pos (hr : 1 ≤ rate) {n : Nat} (hn : 0 < n) :
    squeezeLengths rate n = min n rate :: squeezeLengths rate (n - min n rate) := by
  cases n with
  | zero => omega
  | succ n =>
    simp only [squeezeLengths, lengthsFrom]
    congr 1
    exact lengthsFrom_fuel hr (by omega) (by omega)

/-- A rate is at least one byte (R15). -/
theorem absorbRate_pos (r : AbsorbRate) : 1 ≤ r.bytes := by cases r <;> decide

/-- A rate is at least one byte (R15). -/
theorem squeezeRate_pos (r : SqueezeRate) : 1 ≤ r.bytes := by cases r <;> decide

/-- Induction over a byte string, one chunk at a time. -/
theorem chunk_induction {P : List Byte → Prop} (hr : 1 ≤ rate) (nil : P [])
    (step : ∀ x, x ≠ [] → P (x.drop rate) → P x) (x : List Byte) : P x := by
  induction h : x.length using Nat.strong_induction_on generalizing x with
  | _ n ih =>
    by_cases hx : x = []
    · exact hx ▸ nil
    · refine step x hx (ih _ ?_ _ rfl)
      have := List.length_pos_iff.2 hx
      simp only [List.length_drop]
      omega

/-- Induction over an output length, one chunk at a time. -/
theorem length_induction {P : Nat → Prop} (hr : 1 ≤ rate) (zero : P 0)
    (step : ∀ n, 0 < n → P (n - min n rate) → P n) (n : Nat) : P n := by
  induction n using Nat.strong_induction_on with
  | _ n ih =>
    cases n with
    | zero => exact zero
    | succ n => exact step _ (by omega) (ih _ (by omega))

end Sys2Proof.Machine
end

