-- ==== Sys2Proof/Laws/HostSide.lean ====
section
/-! SUPPORT. What the host's shared operations can do, said once each: planning, asking, performing. -/

namespace Sys2Proof.HostSide

open Sys2Proof.Machine

/-- What asking one well-framed command of an idle core gives: the response of its body, and the core with that response
delivered. -/
theorem ask_command {cw : CommandWord} {din : List Byte} {i : Instr} {s : State} (hb : s.busy = .no)
    (hd : decode cw = .ok i) (hl : din.length = dinLength i) :
    ask (.command cw din) s =
      match bodyOf i din s.cyclist with
      | .ok (c, dout) =>
        some ({ s with cyclist := c, din := [], inputs := [], received := s.received ++ [⟨.ok, dout⟩] }, ⟨.ok, dout⟩)
      | .error e =>
        some ({ s with din := [], inputs := [], received := s.received ++ [⟨.error e, []⟩] }, ⟨.error e, []⟩) := by
  have h1 : step { s with inputs := [.command cw din] } =
      .next (conclude (bodyOf i din s.cyclist) (accept din [] s)) := by
    simp only [step, hb, runCommand, hd]
    exact exec_of_length hl
  unfold ask
  rw [run_succ h1]
  rcases bodyOf i din s.cyclist with e | ⟨c, dout⟩
  · rw [run_succ (t := { s with din := [], inputs := [], received := s.received ++ [⟨.error e, []⟩] })
      (by simp [step, conclude, reject, accept, deliver, hb])]
    simp
  · rw [run_succ (t := { s with cyclist := c, din := [], inputs := [], received := s.received ++ [⟨.ok, dout⟩] })
      (by simp [step, conclude, complete, accept, deliver, hb])]
    simp

/-- A plan that succeeds presents its commands, each well formed, in order. -/
theorem plan_ok {calls : List (Instr × List Byte)} {es : List HostInput} (h : plan calls = .ok es) :
    (∀ c ∈ calls, c.1.wf = true) ∧ es = calls.map fun c => issue c.1 c.2 := by
  unfold plan at h
  split at h
  · rename_i hw
    exact ⟨by simpa using hw, by simpa using h.symm⟩
  · cases h

/-- A call whose plan fails issues no command and leaves the core alone. -/
@[simp] theorem perform_error {α : Type} (f : Failure) (result : List Response → Option α) (s : State) :
    perform (.error f) result s = (s, .error f) := rfl

/-- No transactions: the core is left alone and there is no response. -/
@[simp] theorem converse_nil (s : State) : converse [] s = (s, .ok []) := rfl

/-- A conversation goes on after a response that is no error. -/
theorem converse_cons {e : HostInput} {es : List HostInput} {s t : State} {dout : List Byte}
    (h : ask e s = some (t, ⟨.ok, dout⟩)) :
    converse (e :: es) s = ((converse es t).1, (converse es t).2.map fun rs => ⟨.ok, dout⟩ :: rs) := by
  simp [converse, h]

/-- A conversation ends at an error status. -/
theorem converse_cons_error {e : HostInput} {es : List HostInput} {s t : State} {k : ErrorKind} {dout : List Byte}
    (h : ask e s = some (t, ⟨.error k, dout⟩)) : converse (e :: es) s = (t, .error (.error k)) := by
  simp [converse, h]

end Sys2Proof.HostSide
end

