-- ==== Sys2Proof/Laws/PerInstr.lean ====
section
/-! SUPPORT. Statements made per constructor of Instr. -/

/-- The word of a command is selected by a row of the match/mask table that bears the command's mnemonic (R55). -/
def Sys2Proof.Laws.OwnRow.Statement (i : Sys2Proof.Instr) : Prop :=
  ∃ row ∈ Sys2Proof.opcodeRows, row.mnemonic = i.mnemonic ∧ row.selects (Sys2Proof.encode i) = true

namespace Sys2Proof.Laws.OwnRow

/-- One row of the table, its mask and pattern given by fields, is enough. -/
theorem of_row {i : Instr} (row : OpcodeRow) (m p : Fields) (hrow : row ∈ opcodeRows) (hname : row.mnemonic = i.mnemonic)
    (hm : row.mask = m.word) (hp : row.pattern = p.word)
    (h : Fields.mk (i.fields.opc &&& m.opc) (i.fields.a &&& m.a) (i.fields.b &&& m.b) (i.fields.c &&& m.c)
      (i.fields.len &&& m.len) = p) : Statement i :=
  ⟨row, hrow, hname, (selects_word hm hp).2 h⟩

theorem loadBytes (len : Nat) : Statement (Sys2Proof.Instr.loadBytes len) :=
  of_row ⟨"LOADBYTES", 0x0100000000000000#64, 0xFFFFFFFF00000000#64⟩ ⟨0xFF, 0xFF, 0xFF, 0xFF, 0x00000000⟩ ⟨0x01, 0, 0, 0, 0⟩
    (by decide) rfl (by decide) (by decide) (by simp [Instr.fields])

theorem storeBytes : Statement (Sys2Proof.Instr.storeBytes) :=
  of_row ⟨"STOREBYTES", 0x0200000000000000#64, 0xFFFFFFFFFFFFFFFF#64⟩ ⟨0xFF, 0xFF, 0xFF, 0xFF, 0xFFFFFFFF⟩ ⟨0x02, 0, 0, 0, 0⟩
    (by decide) rfl (by decide) (by decide) (by simp [Instr.fields])

theorem xorStateBytes (len : Nat) : Statement (Sys2Proof.Instr.xorStateBytes len) :=
  of_row ⟨"XORSTATEBYTES", 0x0300000000000000#64, 0xFFFFFFFF00000000#64⟩ ⟨0xFF, 0xFF, 0xFF, 0xFF, 0x00000000⟩ ⟨0x03, 0, 0, 0, 0⟩
    (by decide) rfl (by decide) (by decide) (by simp [Instr.fields])

theorem xorByteAt (b : Byte) (offset : Nat) : Statement (Sys2Proof.Instr.xorByteAt b offset) :=
  of_row ⟨"XORBYTEAT", 0x0400000000000000#64, 0xFF0000FFFFFFFFFF#64⟩ ⟨0xFF, 0x00, 0x00, 0xFF, 0xFFFFFFFF⟩ ⟨0x04, 0, 0, 0, 0⟩
    (by decide) rfl (by decide) (by decide) (by simp [Instr.fields])

theorem xorExtract (n : Nat) : Statement (Sys2Proof.Instr.xorExtract n) :=
  of_row ⟨"XOREXTRACT", 0x0500000000000000#64, 0xFFFFFFFF00000000#64⟩ ⟨0xFF, 0xFF, 0xFF, 0xFF, 0x00000000⟩ ⟨0x05, 0, 0, 0, 0⟩
    (by decide) rfl (by decide) (by decide) (by simp [Instr.fields])

theorem permute (r : Nat) : Statement (Sys2Proof.Instr.permute r) :=
  of_row ⟨"PERMUTE", 0x1000000000000000#64, 0xFF00FFFFFFFFFFFF#64⟩ ⟨0xFF, 0x00, 0xFF, 0xFF, 0xFFFFFFFF⟩ ⟨0x10, 0, 0, 0, 0⟩
    (by decide) rfl (by decide) (by decide) (by simp [Instr.fields])

theorem down (cd : Byte) (len : Nat) : Statement (Sys2Proof.Instr.down cd len) :=
  of_row ⟨"DOWN", 0x2000000000000000#64, 0xFF00FFFF00000000#64⟩ ⟨0xFF, 0x00, 0xFF, 0xFF, 0x00000000⟩ ⟨0x20, 0, 0, 0, 0⟩
    (by decide) rfl (by decide) (by decide) (by simp [Instr.fields])

theorem up (cu : Byte) (outLen : Nat) : Statement (Sys2Proof.Instr.up cu outLen) :=
  of_row ⟨"UP", 0x2100000000000000#64, 0xFF00FFFF00000000#64⟩ ⟨0xFF, 0x00, 0xFF, 0xFF, 0x00000000⟩ ⟨0x21, 0, 0, 0, 0⟩
    (by decide) rfl (by decide) (by decide) (by simp [Instr.fields])

theorem absorbAny (cdFirst : Byte) (rate : Nat) (len : Nat) : Statement (Sys2Proof.Instr.absorbAny cdFirst rate len) :=
  of_row ⟨"ABSORBANY", 0x2200000000000000#64, 0xFF0000FF00000000#64⟩ ⟨0xFF, 0x00, 0x00, 0xFF, 0x00000000⟩ ⟨0x22, 0, 0, 0, 0⟩
    (by decide) rfl (by decide) (by decide) (by simp [Instr.fields])

theorem squeezeAny (cuFirst : Byte) (outLen : Nat) : Statement (Sys2Proof.Instr.squeezeAny cuFirst outLen) :=
  of_row ⟨"SQUEEZEANY", 0x2300000000000000#64, 0xFF00FFFF00000000#64⟩ ⟨0xFF, 0x00, 0xFF, 0xFF, 0x00000000⟩ ⟨0x23, 0, 0, 0, 0⟩
    (by decide) rfl (by decide) (by decide) (by simp [Instr.fields])

theorem instantiate (idLen : Nat) (keyLen : Nat) (counterLen : Nat) : Statement (Sys2Proof.Instr.instantiate idLen keyLen counterLen) :=
  of_row ⟨"INSTANTIATE", 0x3000000000000000#64, 0xFFFF000000000000#64⟩ ⟨0xFF, 0xFF, 0x00, 0x00, 0x00000000⟩ ⟨0x30, 0, 0, 0, 0⟩
    (by decide) rfl (by decide) (by decide) (by simp [Instr.fields])

theorem absorb (len : Nat) : Statement (Sys2Proof.Instr.absorb len) :=
  of_row ⟨"ABSORB", 0x3100000000000000#64, 0xFFFFFFFF00000000#64⟩ ⟨0xFF, 0xFF, 0xFF, 0xFF, 0x00000000⟩ ⟨0x31, 0, 0, 0, 0⟩
    (by decide) rfl (by decide) (by decide) (by simp [Instr.fields])

theorem absorbBlock (cd : Byte) (len : Nat) : Statement (Sys2Proof.Instr.absorbBlock cd len) :=
  of_row ⟨"ABSORBBLOCK", 0x3200000000000000#64, 0xFF00FFFF00000000#64⟩ ⟨0xFF, 0x00, 0xFF, 0xFF, 0x00000000⟩ ⟨0x32, 0, 0, 0, 0⟩
    (by decide) rfl (by decide) (by decide) (by simp [Instr.fields])

theorem encrypt (len : Nat) : Statement (Sys2Proof.Instr.encrypt len) :=
  of_row ⟨"ENCRYPT", 0x3300000000000000#64, 0xFFFFFFFF00000000#64⟩ ⟨0xFF, 0xFF, 0xFF, 0xFF, 0x00000000⟩ ⟨0x33, 0, 0, 0, 0⟩
    (by decide) rfl (by decide) (by decide) (by simp [Instr.fields])

theorem decrypt (len : Nat) : Statement (Sys2Proof.Instr.decrypt len) :=
  of_row ⟨"DECRYPT", 0x3400000000000000#64, 0xFFFFFFFF00000000#64⟩ ⟨0xFF, 0xFF, 0xFF, 0xFF, 0x00000000⟩ ⟨0x34, 0, 0, 0, 0⟩
    (by decide) rfl (by decide) (by decide) (by simp [Instr.fields])

theorem squeeze (n : Nat) : Statement (Sys2Proof.Instr.squeeze n) :=
  of_row ⟨"SQUEEZE", 0x3500000000000000#64, 0xFFFFFFFF00000000#64⟩ ⟨0xFF, 0xFF, 0xFF, 0xFF, 0x00000000⟩ ⟨0x35, 0, 0, 0, 0⟩
    (by decide) rfl (by decide) (by decide) (by simp [Instr.fields])

theorem squeezeKey (n : Nat) : Statement (Sys2Proof.Instr.squeezeKey n) :=
  of_row ⟨"SQUEEZEKEY", 0x3600000000000000#64, 0xFFFFFFFF00000000#64⟩ ⟨0xFF, 0xFF, 0xFF, 0xFF, 0x00000000⟩ ⟨0x36, 0, 0, 0, 0⟩
    (by decide) rfl (by decide) (by decide) (by simp [Instr.fields])

theorem ratchet : Statement (Sys2Proof.Instr.ratchet) :=
  of_row ⟨"RATCHET", 0x3700000000000000#64, 0xFFFFFFFFFFFFFFFF#64⟩ ⟨0xFF, 0xFF, 0xFF, 0xFF, 0xFFFFFFFF⟩ ⟨0x37, 0, 0, 0, 0⟩
    (by decide) rfl (by decide) (by decide) (by simp [Instr.fields])

end Sys2Proof.Laws.OwnRow
end

