-- ==== Sys2Proof/Tests/Slice0.lean ====
section
/-! SUPPORT. The model's own tests. Expected values are copied from spec/95_test_vectors.md (V, P and section numbers are its own)
or from the example of the rule named. Then the witnesses: states and operands that meet the hypotheses of each obligation. -/

namespace Sys2Proof.Tests

open Sys2Proof.Machine

set_option Elab.async false

/-! ### Helpers -/

/-- A byte string of `len` bytes from one hexadecimal numeral, byte 0 first. -/
def hex (len n : Nat) : List Byte := (List.range len).map fun i => BitVec.ofNat 8 (n / 256 ^ (len - 1 - i))

/-- The bytes `00 01 02 ..`, `n` of them. -/
def count (n : Nat) : List Byte := (List.range n).map fun i => BitVec.ofNat 8 i

/-- `n` bytes 0x00. -/
def zeros (n : Nat) : List Byte := List.replicate n 0x00#8

/-- Twelve lanes from one hexadecimal numeral, `S[0]` first. -/
def lanes (n : Nat) : Lanes := Vector.ofFn fun i => BitVec.ofNat 32 (n / 2 ^ (32 * (11 - i.val)))

/-- A Hash-mode instance. -/
def hash (p : Phase) (s : Lanes) : Cyclist := { Cyclist.fresh with lanes := s, phase := p }

/-- A Keyed-mode instance. -/
def keyed (p : Phase) (s : Lanes) : Cyclist := { Cyclist.fresh.enterKeyed with lanes := s, phase := p }

/-- An idle core with the instance, executing a command with the data in. -/
def core (c : Cyclist) (din : List Byte) : State := { State.reset with cyclist := c, din := din }

/-- An idle core to which the events are presented. -/
def facing (c : Cyclist) (inputs : List HostInput) : State := { State.reset with cyclist := c, inputs := inputs }

/-- The instance and the response after a command. -/
def result (o : Outcome) : Option (Cyclist × Status × List Byte) :=
  match o with
  | .next t => t.pending.map fun r => (t.cyclist, r.status, r.dout)
  | .fault _ => none
  | .refused _ => none

/-- The response after a command. -/
def answer (o : Outcome) : Option (Status × List Byte) := (result o).map fun r => (r.2.1, r.2.2)

/-- The status after a command. -/
def status (o : Outcome) : Option Status := (result o).map fun r => r.2.1

/-- The instance after INSTANTIATE key=00 (V3.3). -/
def afterKey00 : Cyclist :=
  keyed .down (lanes 0x000100000000000000000000000000000000000000000000000000000000000000000000000000000000000002000000)

/-- The instance after the INSTANTIATE of seed scenario 3 (P3). -/
def afterSeed3 : Cyclist :=
  keyed .down (lanes 0xa0ebcade4f25c9c1e7a4fdb93b38f96ad20d522e4615fbfe9b9367c5e892da7000000110000000000000000002000000)

/-- The instance after the ABSORB of P3. -/
def afterAd3 : Cyclist :=
  keyed .down (lanes 0x38d5de996bc61ebf460d5ea0c0dffb9cddb8ce3a98b92578fb9d1f9ea500825dc00259afe6dbdf6a4e146c8178f057cb)

/-- The instance after the ENCRYPT of P3. -/
def afterEncrypt3 : Cyclist :=
  keyed .down (lanes 0x9f78fb7264f0e775667842b455097a900eac04065f705d8d2a858e8d6b3392854b3072f0a09fa188a0b30b98902232f2)

/-- The associated data of seed scenario 3. -/
def ad3 : List Byte := hex 32 0x0e0f621d2a62bdb09833a0c920689be7657736fb2d099f5caf906fb983fa4c4c

/-- The plaintext of seed scenario 3. -/
def pt3 : List Byte := hex 32 0x80f71cb5c2e9512e56893cda54adb6fdfc18bd9a401e8aba157c04e16f4c4556

/-- The ciphertext of seed scenario 3. -/
def ct3 : List Byte := hex 32 0x64f8fb7950e1e50e4dfb3b11a9da03750186d9ae2a4a636072fb789f75e7f064

/-- The lanes `S[k] = 0x9E3779B9 * (k+1)` of section 2.2. -/
def stepInput : Lanes :=
  lanes 0x9e3779b93c6ef372daa66d2b78dde6e41715609db54cda565384540ff1bbcdc88ff347812e2ac13acc623af36a99b4ac

/-- The instance after ABSORB of "hello xoodoo" (P2). -/
def afterHello : Cyclist :=
  hash .down (lanes 0x6c6c65686f78206f6f6f646f000000010000000000000000000000000000000000000000000000000000000001000000)

/-! ### WellFormed: an ill-formed term for each check (R56) -/

theorem test_wf_refuses_loadBytes : Instr.wf (.loadBytes (2 ^ 32)) = false := by decide

theorem test_wf_refuses_xorStateBytes : Instr.wf (.xorStateBytes (2 ^ 32)) = false := by decide

theorem test_wf_refuses_xorByteAt : Instr.wf (.xorByteAt 0x01#8 256) = false := by decide

theorem test_wf_refuses_xorExtract : Instr.wf (.xorExtract (2 ^ 32)) = false := by decide

theorem test_wf_refuses_permute : Instr.wf (.permute 256) = false := by decide

theorem test_wf_refuses_down : Instr.wf (.down 0x01#8 (2 ^ 32)) = false := by decide

theorem test_wf_refuses_up : Instr.wf (.up 0x01#8 (2 ^ 32)) = false := by decide

theorem test_wf_refuses_absorbAny_rate : Instr.wf (.absorbAny 0x03#8 256 0) = false := by decide

theorem test_wf_refuses_absorbAny_len : Instr.wf (.absorbAny 0x03#8 16 (2 ^ 32)) = false := by decide

theorem test_wf_refuses_squeezeAny : Instr.wf (.squeezeAny 0x40#8 (2 ^ 32)) = false := by decide

theorem test_wf_refuses_instantiate_id : Instr.wf (.instantiate 256 0 0) = false := by decide

theorem test_wf_refuses_instantiate_key : Instr.wf (.instantiate 0 256 0) = false := by decide

theorem test_wf_refuses_instantiate_counter : Instr.wf (.instantiate 0 0 (2 ^ 32)) = false := by decide

theorem test_wf_refuses_absorb : Instr.wf (.absorb (2 ^ 32)) = false := by decide

theorem test_wf_refuses_absorbBlock : Instr.wf (.absorbBlock 0x03#8 (2 ^ 32)) = false := by decide

theorem test_wf_refuses_encrypt : Instr.wf (.encrypt (2 ^ 32)) = false := by decide

theorem test_wf_refuses_decrypt : Instr.wf (.decrypt (2 ^ 32)) = false := by decide

theorem test_wf_refuses_squeeze : Instr.wf (.squeeze (2 ^ 32)) = false := by decide

theorem test_wf_refuses_squeezeKey : Instr.wf (.squeezeKey (2 ^ 32)) = false := by decide

/-- The largest numbers the fields hold, and numbers a command rejects, are well formed. -/
theorem test_wf_admits : ([.loadBytes 0, .permute 255, .xorByteAt 0xFF#8 255, .instantiate 255 255 (2 ^ 32 - 1),
    .storeBytes, .ratchet] : List Instr).all Instr.wf = true := by decide

/-! ### Decoding: words written out from the encoding of R51, R52, R55 -/

theorem test_decode_loadBytes : decode 0x0100000000000030#64 = .ok (.loadBytes 48) := by decide

theorem test_decode_storeBytes : decode 0x0200000000000000#64 = .ok (.storeBytes) := by decide

theorem test_decode_xorStateBytes : decode 0x0300000000000010#64 = .ok (.xorStateBytes 16) := by decide

theorem test_decode_xorByteAt : decode 0x0455300000000000#64 = .ok (.xorByteAt 0x55#8 48) := by decide

theorem test_decode_xorExtract : decode 0x0500000000000003#64 = .ok (.xorExtract 3) := by decide

theorem test_decode_permute : decode 0x10FF000000000000#64 = .ok (.permute 255) := by decide

theorem test_decode_down : decode 0x20FF00000000002C#64 = .ok (.down 0xFF#8 44) := by decide

theorem test_decode_up : decode 0x2140000000000008#64 = .ok (.up 0x40#8 8) := by decide

theorem test_decode_absorbAny : decode 0x22032F0000000005#64 = .ok (.absorbAny 0x03#8 47 5) := by decide

theorem test_decode_squeezeAny : decode 0x2320000000000020#64 = .ok (.squeezeAny 0x20#8 32) := by decide

theorem test_decode_instantiate : decode 0x3000021000000003#64 = .ok (.instantiate 2 16 3) := by decide

theorem test_decode_absorb : decode 0x3100000000000028#64 = .ok (.absorb 40) := by decide

theorem test_decode_absorbBlock : decode 0x3203000000000010#64 = .ok (.absorbBlock 0x03#8 16) := by decide

theorem test_decode_encrypt : decode 0x3300000000000019#64 = .ok (.encrypt 25) := by decide

theorem test_decode_decrypt : decode 0x3400000000000020#64 = .ok (.decrypt 32) := by decide

theorem test_decode_squeeze : decode 0x3500000000000040#64 = .ok (.squeeze 64) := by decide

theorem test_decode_squeezeKey : decode 0x3600000000000010#64 = .ok (.squeezeKey 16) := by decide

theorem test_decode_ratchet : decode 0x3700000000000000#64 = .ok (.ratchet) := by decide

/-- The illegal words of section 3.7. -/
theorem test_decode_illegal :
    [0x0000000000000000#64, 0xFFFFFFFFFFFFFFFF#64, 0x0600000000000000#64, 0x3800000000000000#64, 0x0200000000000001#64,
      0x0201000000000000#64, 0x3700000100000000#64, 0x0100000100000030#64, 0x0400000000000001#64, 0x1000010000000000#64,
      0x100C000000000001#64, 0x2003000100000003#64, 0x2003010000000003#64, 0x2200100100000000#64, 0x3001000000000000#64,
      0x3501000000000020#64, 0x3100010000000000#64].all (fun cw => !(decode cw).isOk) = true := by decide

/-- The lengths of the data-in streams of section 3 (R53). -/
theorem test_din_lengths : [0x0100000000000030#64, 0x2003000000000003#64, 0x2140000000000004#64, 0x3000FFFF00000000#64,
    0x3000021000000003#64, 0x3500000000000020#64, 0x0200000000000001#64].map dinLengthOfWord =
    [48, 3, 0, 510, 21, 0, 0] := by decide

/-- The opcode table's numbering is that of the command word: bit 0 is bit 0. -/
theorem test_decodeTableWord : decodeTableWord 64 0x2003000000000003 = some (.down 0x03#8 3) ∧
    decodeTableWord 64 0 = none := by decide

/-- The very next step runs the word placed for it. -/
theorem test_withFetchWord : step (State.reset.withFetchWord 64 0x2003000000000003) =
    exec (.down 0x03#8 3) { State.reset with din := zeros 3 } := by rfl

/-! ### Codec commands (section 2.1) -/

theorem test_loadBytes : result (exec (.loadBytes 48) (core .fresh (count 48))) = some
    (hash .up (lanes 0x03020100070605040b0a09080f0e0d0c13121110171615141b1a19181f1e1d1c23222120272625242b2a29282f2e2d2c),
      .ok, []) := by decide +kernel

theorem test_storeBytes : answer (exec .storeBytes (core (hash .up
    (lanes 0x03020100070605040b0a09080f0e0d0c13121110171615141b1a19181f1e1d1c23222120272625242b2a29282f2e2d2c)) [])) =
    some (.ok, count 48) := by decide +kernel

/-- V2.6. -/
theorem test_xorStateBytes : result (exec (.xorStateBytes 48) (core .fresh (0x01#8 :: zeros 46 ++ [0x03#8]))) = some
    (hash .up (lanes 0x000000010000000000000000000000000000000000000000000000000000000000000000000000000000000003000000),
      .ok, []) := by decide +kernel

/-- The second example of R73. -/
theorem test_xorByteAt : result (exec (.xorByteAt 0xAB#8 5) (core (hash .up
    (lanes 0x000000000000000000000000000000000000000000000000000000000000000000000000000000000000000001000000)) [])) = some
    (hash .up (lanes 0x000000000000ab0000000000000000000000000000000000000000000000000000000000000000000000000001000000),
      .ok, []) := by decide +kernel

/-- V2.4. -/
theorem test_xorByteAt_outside : answer (exec (.xorByteAt 0x55#8 48) (core .fresh [])) =
    some (.error .invalidOperand, []) := by decide +kernel

/-- V2.5. -/
theorem test_xorExtract : answer (exec (.xorExtract 3) (core (hash .up
    (lanes 0x443322110000ab00000000000000000000000000000000000000000000000000000000000000000000000000fe000000))
    [0xFF#8, 0xFF#8, 0x00#8])) = some (.ok, [0xEE#8, 0xDD#8, 0x33#8]) := by decide +kernel

/-! ### The five steps, one at a time (section 2.2), and PERMUTE (sections 2.3, 2.4) -/

theorem test_theta : theta stepInput =
    lanes 0x0624b15ab1ec666601bcc73dd0284d5c8f06a87e38ce4f42889efe19594e667017e08f62a3a8542e177890e5c26c1f14 := by
  decide +kernel

theorem test_rhoWest : rhoWest stepInput =
    lanes 0x9e3779b93c6ef372daa66d2b78dde6e4f1bbcdc81715609db54cda565384540f9a3c0c7f5609d17111d79e63cda56354 := by
  decide +kernel

theorem test_iota : iota 0 stepInput =
    lanes 0x9e3779e13c6ef372daa66d2b78dde6e41715609db54cda565384540ff1bbcdc88ff347812e2ac13acc623af36a99b4ac := by
  decide +kernel

theorem test_chi : chi stepInput =
    lanes 0x16d57eb9364cf25a56c447db72ddd6c0071158a5a508e81641001107e1ff8f888ef34785af2ac93ecd622af7ebbbbda4 := by
  decide +kernel

theorem test_rhoEast : rhoEast stepInput =
    lanes 0x9e3779b93c6ef372daa66d2b78dde6e42e2ac13a6a99b4ada708a81ee3779b91623af3cc99b4ac6af347818f2ac13a2e := by
  decide +kernel

theorem test_permute_1 : result (exec (.permute 1) (core (hash .down
    (lanes 0x0000000100000002000000030000000400000005000000060000000700000008000000090000000a0000000b0000000c)) [])) = some
    (hash .down (lanes 0x000008131a0e11a21c0f99c31e0fa1e4000783f60004034e000580ca000600460e18241c0f60031e0389e8000d50051a),
      .ok, []) := by decide +kernel

theorem test_permute_12 : result (exec (.permute 12) (core .fresh [])) = some
    (hash .up (lanes 0x89d5d88da963fcbf1b232d19ffa5a01436b18106afc7c1feaee57cbea77540bd2e86e870fef5b7c98b4fadf25e4f4062),
      .ok, []) := by decide +kernel

/-! ### Cyclist primitives (sections 3.1 to 3.3) -/

/-- V3.1. -/
theorem test_down : result (exec (.down 0x03#8 3) (core .fresh [0x61#8, 0x62#8, 0x63#8])) = some
    (hash .down (lanes 0x016362610000000000000000000000000000000000000000000000000000000000000000000000000000000001000000),
      .ok, []) := by decide +kernel

/-- V3.3: the domain byte unmasked. -/
theorem test_down_keyed : result (exec (.down 0x03#8 3) (core (keyed .up
    (lanes 0xf1a8a1ff80f1488fb2ee51274b88dac3574f7c750cde5284e4d72a4b60d5f0ea45a9b35c26927d30560ba92aed5c7b1d))
    [0x61#8, 0x62#8, 0x63#8])) = some
    (keyed .down (lanes 0xf0cbc39e80f1488fb2ee51274b88dac3574f7c750cde5284e4d72a4b60d5f0ea45a9b35c26927d30560ba92aee5c7b1d),
      .ok, []) := by decide +kernel

/-- V3.4. -/
theorem test_up : result (exec (.up 0x40#8 4) (core .fresh [])) = some
    (hash .up (lanes 0x89d5d88da963fcbf1b232d19ffa5a01436b18106afc7c1feaee57cbea77540bd2e86e870fef5b7c98b4fadf25e4f4062),
      .ok, hex 4 0x8dd8d589) := by decide +kernel

/-- V3.5: in Keyed mode `cu` counts. -/
theorem test_up_keyed : answer (exec (.up 0x40#8 8) (core afterKey00 [])) = some (.ok, hex 8 0x7e160229b89d0e4f) := by
  decide +kernel

/-- The ABSORB of P3, of which R108 says that it is ABSORBANY with 0x03 and rate 44. -/
theorem test_absorbAny : result (exec (.absorbAny 0x03#8 44 32) (core afterSeed3 ad3)) = some (afterAd3, .ok, []) := by
  decide +kernel

/-- Section 3.2: `Down(2,0x03); Up(0x00,0); Down(2,0x00); Up(0x00,0); Down(1,0x00)`. -/
theorem test_absorbAny_calls : (callsOf (.absorbAny 0x03#8 2 5) (count 5) .fresh).map Call.shape =
    [⟨true, 2, 0x03#8⟩, ⟨false, 0, 0x00#8⟩, ⟨true, 2, 0x00#8⟩, ⟨false, 0, 0x00#8⟩, ⟨true, 1, 0x00#8⟩] := by decide +kernel

/-- Section 3.3. -/
theorem test_squeezeAny : answer (exec (.squeezeAny 0x20#8 32) (core afterSeed3 [])) =
    some (.ok, hex 32 0x685e3da3f18048aa282a1013ed1fba9c8d2559ad65d4aea9f6558c8e093c39eb) := by decide +kernel

/-! ### Cyclist commands (sections 3.3 to 3.6, programs P2 to P5) -/

/-- V3.22: 43 bytes of key and id. -/
theorem test_instantiate : result (exec (.instantiate 11 32 0) (core afterHello
    (hex 43 0x101112131415161718191a1b1c1d1e1f202122232425262728292a2b2c2d2e2fa0a1a2a3a4a5a6a7a8a9aa))) = some
    (keyed .down (lanes 0x13121110171615141b1a19181f1e1d1c23222120272625242b2a29282f2e2d2ca3a2a1a0a7a6a5a40baaa9a802000001),
      .ok, []) := by decide +kernel

/-- V3.25: the counter path. -/
theorem test_instantiate_counter : result (exec (.instantiate 2 16 3) (core .fresh
    (hex 21 0x000102030405060708090a0b0c0d0e0fa0a1010203))) = some
    (keyed .down (lanes 0x82f62ec128544356c3099fd98dc400459ea85bd43a9e6c57ad49959d6552ed69058761fe10648ec4b8681da517262484),
      .ok, []) := by decide +kernel

/-- P3. -/
theorem test_absorb : result (exec (.absorb 32) (core afterSeed3 ad3)) = some (afterAd3, .ok, []) := by decide +kernel

/-- P2. -/
theorem test_absorb_hash : result (exec (.absorb 12) (core .fresh (hex 12 0x68656c6c6f20786f6f646f6f))) =
    some (afterHello, .ok, []) := by decide +kernel

/-- The example of R124. -/
theorem test_absorbBlock : result (exec (.absorbBlock 0x03#8 12) (core .fresh (hex 12 0x68656c6c6f20786f6f646f6f))) =
    some (afterHello, .ok, []) := by decide +kernel

/-- The guard's Up: one block in phase Down is the one-block ABSORB of P3 (R124). -/
theorem test_absorbBlock_guard : result (exec (.absorbBlock 0x03#8 32) (core afterSeed3 ad3)) =
    some (afterAd3, .ok, []) := by decide +kernel

/-- P3, seed scenario 3. -/
theorem test_encrypt : result (exec (.encrypt 32) (core afterAd3 pt3)) = some (afterEncrypt3, .ok, ct3) := by decide +kernel

/-- Section 3.4: Hash mode. -/
theorem test_encrypt_hash : answer (exec (.encrypt 25) (core .fresh (count 25))) =
    some (.ok, hex 25 0x8dd9d78abbf965ae1124291018adabf01690a325ead4d1b855) := by decide +kernel

/-- P4. -/
theorem test_decrypt : result (exec (.decrypt 32) (core afterAd3 ct3)) = some (afterEncrypt3, .ok, pt3) := by decide +kernel

/-- P4, first byte 65 instead of 64. -/
theorem test_decrypt_corrupted : answer (exec (.decrypt 32) (core afterAd3 (ct3.set 0 0x65#8))) =
    some (.ok, hex 32 0x81f71cb5c2e9512e56893cda54adb6fdfc18bd9a401e8abaf1d88f597d665658) := by decide +kernel

/-- P2, seed scenario 1. -/
theorem test_squeeze : result (exec (.squeeze 32) (core afterHello [])) = some
    (hash .up (lanes 0xc62d5620d2f24446854711829ab2e637738e1cf2682a519fa8bc3ddba0307eadd1f8a424b92ba2910ee14bb4588155cc),
      .ok, hex 32 0x5c9a95363d79b2157cbdfff49dddaf1f20562dc64644f2d28211478537e6b29a) := by decide +kernel

/-- P3, the tag. -/
theorem test_squeeze_tag : answer (exec (.squeeze 16) (core afterEncrypt3 [])) =
    some (.ok, hex 16 0xbe6e3766533492ee19327384d5f38a29) := by decide +kernel

/-- Section 3.3. -/
theorem test_squeezeKey : answer (exec (.squeezeKey 25) (core afterSeed3 [])) =
    some (.ok, hex 25 0x685e3da3f18048aa282a1013ed1fba9c8d2559ad65d4aea9f6) := by decide +kernel

/-- Section 3.7. -/
theorem test_squeezeKey_hash : answer (exec (.squeezeKey 0) (core .fresh [])) = some (.error .modeViolation, []) := by
  decide +kernel

/-- Section 3.6. -/
theorem test_ratchet : result (exec .ratchet (core afterSeed3 [])) = some
    (keyed .down (lanes 0x0000000000000000000000000000000019e547720aa84b82311b9d0ef4f494c66e4fe5d51db7432a54251bd97069eb7d),
      .ok, []) := by decide +kernel

/-- Section 3.7. -/
theorem test_ratchet_hash : result (exec .ratchet (core .fresh [])) = some (.fresh, .error .modeViolation, []) := by
  decide +kernel

/-- P5: the command words the streaming digest presents for a 40-byte message. -/
theorem test_digest_commands :
    let d := HostSide.Digest.write (count 40) HostSide.Digest.initial
    (d.2 ++ d.1.sum.2).map (fun e =>
      match e with
      | .command cw _ => cw
      | .reset => 0
      | .nothing => 0) =
    [0x3203000000000010#64, 0x3200000000000010#64, 0x3200000000000008#64, 0x3500000000000020#64] := by decide +kernel

/-- R152: after Sum of a partial block the domain byte is `AbsorbCdMain`; the empty message is one empty block with 0x03. -/
theorem test_digest_sum : (HostSide.Digest.write (count 3) HostSide.Digest.initial).1.sum.1.cd = 0x00#8 ∧
    HostSide.Digest.initial.sum.2 = [.command 0x3203000000000000#64 [], .command 0x3500000000000020#64 []] ∧
    HostSide.sumResult [0xAA#8] [⟨.ok, []⟩, ⟨.ok, count 2⟩] = some [0xAA#8, 0x00#8, 0x01#8] := by decide +kernel

/-- Section 1, S6: a key of 3 bytes. -/
theorem test_newAead : HostSide.newAead (zeros 3) = .error (.error .invalidKeyLength) ∧
    HostSide.keyLengthMessage (zeros 3) = "given key length (3 bytes) incorrect (16 bytes)" := by decide +kernel

/-- R157: a nonce of the wrong length is fatal in Seal; R155: in Open an input too short for a tag is an error. -/
theorem test_seal_open_errors :
    (HostSide.Aead.mk (zeros 16)).sealSequence (zeros 15) [] [] = .error (.fatal .invalidNonceLength) ∧
    (HostSide.Aead.mk (zeros 16)).openSequence (zeros 16) (zeros 15) [] = .error (.error .invalidCiphertextLength) ∧
    (HostSide.Aead.mk (zeros 16)).openSequence (zeros 15) (zeros 16) [] = .error (.error .invalidNonceLength) := by
  decide +kernel

/-- The key and the nonce of seed scenario 3. -/
def key3 : List Byte := hex 16 0xdecaeba0c1c9254fb9fda4e76af9383b
def nonce3 : List Byte := hex 16 0x2e520dd2fefb1546c567939b70da92e8

/-- P3: the transactions Seal presents in seed scenario 3, and what it makes of the four responses (R157). -/
theorem test_seal : (HostSide.Aead.mk key3).sealSequence nonce3 pt3 ad3 =
      .ok [.command 0x3000101000000000#64 (key3 ++ nonce3), .command 0x3100000000000020#64 ad3,
        .command 0x3300000000000020#64 pt3, .command 0x3500000000000010#64 []] ∧
    HostSide.sealResult [0xAA#8] [⟨.ok, []⟩, ⟨.ok, []⟩, ⟨.ok, [0x01#8]⟩, ⟨.ok, [0x02#8]⟩] =
      some [0xAA#8, 0x01#8, 0x02#8] := by decide +kernel

/-- S5, P4: the tag of seed scenario 3 with its last byte altered: AuthenticationFailed and no plaintext. -/
theorem test_open_flipped :
    HostSide.openResult [0xAA#8] (hex 16 0xbe6e3766533492ee19327384d5f38a28)
      [⟨.ok, []⟩, ⟨.ok, []⟩, ⟨.ok, pt3⟩, ⟨.ok, hex 16 0xbe6e3766533492ee19327384d5f38a29⟩] =
      some (.error .authenticationFailed) := by decide +kernel

/-- R61, log 15: 255 rounds can be asked of the core, 256 fit no command word. -/
theorem test_permuteSequence_rounds : HostSide.permuteSequence [] 255 =
      .ok [.command 0x0100000000000000#64 [], .command 0x10FF000000000000#64 [], .command 0x0200000000000000#64 []] ∧
    HostSide.permuteSequence [] 256 = .error .unspellable := by decide +kernel

/-! ### Witnesses: for each obligation with hypotheses, a state and operands that meet them, per clause, at the bounds -/

/-- A Keyed-mode instance in phase Up, lanes 0. -/
def keyedUp : Cyclist := keyed .up Lanes.zero

/-- The word of UP cu=0, outLen=0. -/
def upWord : CommandWord := 0x2100000000000000#64

/-- A core with a response to deliver. -/
def busyCore (inputs : List HostInput) : State := { facing .fresh inputs with busy := .yes ⟨.ok, [0x11#8]⟩ }

theorem witness_DecodeOfEncodeIsTheCommand : (Instr.instantiate 255 255 (2 ^ 32 - 1)).wf = true := by decide

theorem witness_EncodeOfDecodeIsTheWord :
    decode 0x3000FFFFFFFFFFFF#64 = .ok (.instantiate 255 255 (2 ^ 32 - 1)) := by decide

theorem witness_DecoderAgreesWithMatchAndMask : decode 0x37FF000000000000#64 = .error .unusedFieldNotZero ∧
    decode 0x3700000000000000#64 = .ok .ratchet := by decide

theorem witness_IllegalWordsAreAnsweredIllegalCommand : ∃ (cw : CommandWord) (rest : List HostInput) (s : State),
    (∀ row ∈ opcodeRows, cw &&& row.mask ≠ row.pattern) ∧ s.busy = .no ∧ s.inputs = .command cw [] :: rest :=
  ⟨0, [], facing .fresh [.command 0 []], by decide, rfl, rfl⟩

/-- An illegal word, then one of each group of formats. -/
theorem witness_DataInLengthIsFixedByTheWord :
    (∀ row ∈ opcodeRows, 0xFFFFFFFFFFFFFFFF#64 &&& row.mask ≠ row.pattern) ∧
    (∃ row ∈ opcodeRows, 0x22FFFF00FFFFFFFF#64 &&& row.mask = row.pattern) ∧ (fieldsOf 0x22FFFF00FFFFFFFF#64).opc = 0x22#8 ∧
    (∃ row ∈ opcodeRows, 0x3000FFFFFFFFFFFF#64 &&& row.mask = row.pattern) ∧ (fieldsOf 0x3000FFFFFFFFFFFF#64).opc = 0x30#8 ∧
    (∃ row ∈ opcodeRows, 0x35000000FFFFFFFF#64 &&& row.mask = row.pattern) ∧
    (fieldsOf 0x35000000FFFFFFFF#64).opc = 0x35#8 := by decide

theorem witness_StepRunsTheDecodedCommand : ∃ (s : State) (cw : CommandWord) (din : List Byte) (rest : List HostInput) (i : Instr),
    s.busy = .no ∧ s.inputs = .command cw din :: rest ∧ decode cw = .ok i :=
  ⟨facing .fresh [.command upWord []], upWord, [], [], .up 0 0, rfl, rfl, by decide⟩

/-- The channel empty, a command presented, nothing presented for a step. -/
theorem witness_BusyCoreDeliversItsResponse :
    ((busyCore []).busy = .yes ⟨.ok, [0x11#8]⟩ ∧ (busyCore []).noResetNext = true) ∧
    ((busyCore [.command upWord []]).busy = .yes ⟨.ok, [0x11#8]⟩ ∧ (busyCore [.command upWord []]).noResetNext = true) ∧
    ((busyCore [.nothing]).busy = .yes ⟨.ok, [0x11#8]⟩ ∧ (busyCore [.nothing]).noResetNext = true) := by decide

theorem witness_IdleCoreHoldsItsState : State.reset.busy = .no ∧ State.reset.inputs = [] := by decide

theorem witness_ResetGivesTheFreshInstance : (facing afterSeed3 [.reset]).inputs = .reset :: [] ∧
    (core afterSeed3 []).din = [] := by decide

theorem witness_ResetAbandonsTheRunningCommand : (busyCore [.reset]).busy = .yes ⟨.ok, [0x11#8]⟩ ∧
    (busyCore [.reset]).inputs = .reset :: [] := by decide

/-- One byte short, one byte long, the right length, for a command and for a presented word; a busy core; an empty channel. -/
theorem witness_OnlyMalformedTransactionsStop :
    (core .fresh (zeros 47)).din.length ≠ dinLength (.loadBytes 48) ∧ (core .fresh (zeros 49)).din.length ≠ dinLength (.loadBytes 48) ∧
    (core .fresh (zeros 48)).din.length = dinLength (.loadBytes 48) ∧
    (facing .fresh [.command 0 [0x00#8]]).inputs = .command 0 [0x00#8] :: [] ∧ [0x00#8].length ≠ dinLengthOfWord 0 ∧
    ([] : List Byte).length = dinLengthOfWord 0 ∧ (busyCore [.command upWord []]).busy ≠ .no ∧
    State.reset.inputs = [] := by decide

theorem witness_EveryCommandIsOneTransaction : ∃ (i : Instr) (s t : State), exec i s = .next t :=
  ⟨.storeBytes, core .fresh [], _, exec_of_length rfl⟩

theorem witness_RejectionChangesNothing :
    (∃ (i : Instr) (s t : State) (r : Response) (e : ErrorKind), exec i s = .next t ∧ t.busy = .yes r ∧ r.status = .error e) ∧
    (∃ (s t : State) (cw : CommandWord) (din : List Byte) (rest : List HostInput) (r : Response) (e : ErrorKind),
      s.busy = .no ∧ s.inputs = .command cw din :: rest ∧ step s = .next t ∧ t.busy = .yes r ∧ r.status = .error e ∧
      t.noResetNext = true) :=
  ⟨⟨.ratchet, core .fresh [], _, _, _, exec_of_length rfl, rfl, rfl⟩,
    ⟨facing .fresh [.command 0 [], .command upWord []], _, 0, [], [.command upWord []], _, _, rfl, rfl, rfl, rfl, rfl, rfl⟩⟩

/-- Every cause one past its bound, and each command at the bound. The `din` of each state has the length the command needs. -/
theorem witness_RejectionCausesByCommand :
    [status (exec (.loadBytes 47) (core .fresh (zeros 47))), status (exec (.loadBytes 49) (core .fresh (zeros 49))),
      status (exec (.xorStateBytes 47) (core .fresh (zeros 47))), status (exec (.xorStateBytes 49) (core .fresh (zeros 49)))] =
      List.replicate 4 (some (.error .invalidStateLength)) ∧
    [status (exec (.xorByteAt 0x01#8 48) (core .fresh [])), status (exec (.xorExtract 49) (core .fresh (zeros 49))),
      status (exec (.down 0x00#8 48) (core .fresh (zeros 48))), status (exec (.down 0x00#8 45) (core keyedUp (zeros 45))),
      status (exec (.up 0x00#8 49) (core .fresh [])), status (exec (.absorbAny 0x03#8 0 0) (core .fresh [])),
      status (exec (.absorbAny 0x03#8 48 0) (core .fresh [])), status (exec (.absorbAny 0x03#8 45 0) (core keyedUp [])),
      status (exec (.absorbBlock 0x00#8 17) (core .fresh (zeros 17))),
      status (exec (.absorbBlock 0x00#8 45) (core keyedUp (zeros 45)))] =
      List.replicate 10 (some (.error .invalidOperand)) ∧
    status (exec (.permute 13) (core .fresh [])) = some (.error .invalidRounds) ∧
    status (exec (.instantiate 43 1 0) (core .fresh (zeros 44))) = some (.error .keyTooLarge) ∧
    [status (exec (.loadBytes 48) (core .fresh (zeros 48))), status (exec (.xorStateBytes 48) (core .fresh (zeros 48))),
      status (exec (.xorByteAt 0x01#8 47) (core .fresh [])), status (exec (.xorExtract 48) (core .fresh (zeros 48))),
      status (exec (.down 0x00#8 47) (core .fresh (zeros 47))), status (exec (.down 0x00#8 44) (core keyedUp (zeros 44))),
      status (exec (.up 0x00#8 48) (core .fresh [])), status (exec (.permute 12) (core .fresh [])),
      status (exec (.absorbAny 0x03#8 1 0) (core .fresh [])), status (exec (.absorbAny 0x03#8 47 0) (core .fresh [])),
      status (exec (.absorbAny 0x03#8 44 0) (core keyedUp [])), status (exec (.instantiate 42 1 0) (core .fresh (zeros 43))),
      status (exec (.instantiate 255 0 0) (core .fresh (zeros 255))),
      status (exec (.absorbBlock 0x00#8 16) (core .fresh (zeros 16))),
      status (exec (.absorbBlock 0x00#8 44) (core keyedUp (zeros 44))), status (exec (.squeezeKey 0) (core keyedUp []))] =
      List.replicate 16 (some .ok) := by decide +kernel

/-- Two instances that differ in their lanes, two data-in streams that differ in a byte. -/
theorem witness_ControlFlowReadsNoData : ∃ (i : Instr) (s s' t t' : State) (r r' : Response),
    s.din.length = s'.din.length ∧ s.cyclist.mode = s'.cyclist.mode ∧ s.cyclist.phase = s'.cyclist.phase ∧
    s.cyclist.rabs = s'.cyclist.rabs ∧ s.cyclist.rsqz = s'.cyclist.rsqz ∧ exec i s = .next t ∧ exec i s' = .next t' ∧
    t.busy = .yes r ∧ t'.busy = .yes r' ∧ r.status = .ok ∧ s.cyclist ≠ s'.cyclist ∧ s.din ≠ s'.din :=
  ⟨.absorb 32, core afterSeed3 ad3, core afterAd3 pt3, _, _, _, _, rfl, rfl, rfl, rfl, rfl, exec_of_length rfl,
    exec_of_length rfl, rfl, rfl, rfl, by decide +kernel, by decide +kernel⟩

theorem witness_StepKeepsTheCoreInvariant : ∃ s t : State, s.inv = true ∧ step s = .next t :=
  ⟨facing afterSeed3 [.reset], _, by decide +kernel, rfl⟩

/-- In both modes. -/
theorem witness_StepKeepsRatesOfTheMode :
    (∃ s t : State, s.cyclist.mode = .hash ∧ s.cyclist.rabs.bytes = 16 ∧ s.cyclist.rsqz.bytes = 16 ∧ step s = .next t) ∧
    (∃ s t : State, s.cyclist.mode = .keyed ∧ s.cyclist.rabs.bytes = 44 ∧ s.cyclist.rsqz.bytes = 24 ∧ step s = .next t) :=
  ⟨⟨State.reset, _, rfl, rfl, rfl, rfl⟩, ⟨core afterSeed3 [], _, rfl, rfl, rfl, rfl⟩⟩

/-- A command that is not INSTANTIATE; INSTANTIATE with no key; with a key of one byte. -/
theorem witness_OnlyInstantiateWritesModeAndRates :
    (∃ s t r, exec .storeBytes s = .next t ∧ t.busy = .yes r ∧
      ∀ idLen keyLen counterLen, Instr.storeBytes ≠ .instantiate idLen keyLen counterLen) ∧
    (∃ s t r, exec (.instantiate 0 0 0) s = .next t ∧ t.busy = .yes r ∧ r.status = .ok) ∧
    (∃ s t r, exec (.instantiate 0 1 0) s = .next t ∧ t.busy = .yes r ∧ r.status = .ok ∧ 1 > 0) :=
  ⟨⟨core .fresh [], _, _, exec_of_length rfl, rfl, by simp⟩, ⟨core .fresh [], _, _, exec_of_length rfl, rfl, rfl⟩,
    ⟨core .fresh [0x00#8], _, _, exec_of_length rfl, rfl, rfl, by decide⟩⟩

/-- A command of the codec tier, and DOWN, UP, ABSORBANY, SQUEEZEANY of no byte and of one. -/
theorem witness_PhaseIsTheLastOfUpAndDown :
    (∃ i s t, i.tier = .codec ∧ exec i s = .next t ∧ ∃ d, t.busy = .yes ⟨.ok, d⟩) ∧
    (∃ s t, exec (.down 0x00#8 0) s = .next t ∧ ∃ d, t.busy = .yes ⟨.ok, d⟩) ∧
    (∃ s t, exec (.up 0x00#8 0) s = .next t ∧ ∃ d, t.busy = .yes ⟨.ok, d⟩) ∧
    (∃ s t, exec (.absorbAny 0x00#8 1 0) s = .next t ∧ ∃ d, t.busy = .yes ⟨.ok, d⟩) ∧
    (∃ s t, exec (.squeezeAny 0x00#8 0) s = .next t ∧ ∃ d, t.busy = .yes ⟨.ok, d⟩) ∧
    (∃ s t, exec (.squeezeAny 0x00#8 1) s = .next t ∧ ∃ d, t.busy = .yes ⟨.ok, d⟩) :=
  ⟨⟨.storeBytes, core .fresh [], _, rfl, exec_of_length rfl, _, rfl⟩, ⟨core .fresh [], _, exec_of_length rfl, _, rfl⟩,
    ⟨core .fresh [], _, exec_of_length rfl, _, rfl⟩, ⟨core .fresh [], _, exec_of_length rfl, _, rfl⟩,
    ⟨core .fresh [], _, exec_of_length rfl, _, rfl⟩, ⟨core .fresh [], _, exec_of_length rfl, _, rfl⟩⟩

/-- STOREBYTES, XOREXTRACT of 48 bytes, PERMUTE. -/
theorem witness_CodecTierWorksOnLanesOnly :
    (∃ s t r, exec .storeBytes s = .next t ∧ t.busy = .yes r ∧ r.status = .ok) ∧
    (∃ s t r, exec (.xorExtract 48) s = .next t ∧ t.busy = .yes r ∧ r.status = .ok) ∧
    (∃ s t r, exec (.permute 1) s = .next t ∧ t.busy = .yes r ∧ r.status = .ok) ∧
    [Instr.storeBytes, .xorExtract 48, .permute 1].all (fun i => i.tier == .codec) = true :=
  ⟨⟨core .fresh [], _, _, exec_of_length rfl, rfl, rfl⟩, ⟨core .fresh (zeros 48), _, _, exec_of_length rfl, rfl, rfl⟩,
    ⟨core .fresh [], _, _, exec_of_length rfl, rfl, rfl⟩, rfl⟩

/-- The first and the last byte. -/
theorem witness_ByteViewIsLittleEndian : stepInput.byte 0 = 0xB9#8 ∧ stepInput.byte 47 = 0x6A#8 ∧ 0 < 48 ∧ 47 < 48 := by
  decide +kernel

theorem witness_LoadAndStoreAreInverse : (count 48).length = 48 := by decide

/-- The addressed byte and a neighbour, at the last offset; 48 bytes. -/
theorem witness_XorsActByteByByte : (stepInput.xorByteAt 0x01#8 47).byte 47 = 0x6B#8 ∧
    (stepInput.xorByteAt 0x01#8 47).byte 46 = 0x99#8 ∧ 47 < 48 ∧ 46 < 48 ∧ (count 48).length = 48 := by decide +kernel

theorem witness_LoadBytesReplacesTheLanes : (core .fresh (zeros 48)).din.length = 48 ∧ 48 < 2 ^ 32 ∧
    (core .fresh (zeros 47)).din.length = 47 ∧ 47 ≠ 48 ∧ (core .fresh (zeros 49)).din.length = 49 ∧ 49 ≠ 48 := by decide

theorem witness_StoreBytesReturnsTheState : (core afterSeed3 []).din = [] ∧ 3 < 4 := by decide

theorem witness_XorStateBytesMixesIn48Bytes : (core .fresh (zeros 48)).din.length = 48 ∧ 48 < 2 ^ 32 ∧
    (core .fresh (zeros 47)).din.length = 47 ∧ 47 ≠ 48 ∧ (core .fresh (zeros 49)).din.length = 49 ∧ 49 ≠ 48 := by decide

/-- Offsets 47 and 48. -/
theorem witness_XorByteAtChangesOneByte : (core .fresh []).din = [] ∧ 47 < 48 ∧ 48 ≥ 48 ∧ 255 < 2 ^ 8 := by decide

/-- 48 and 49 bytes. -/
theorem witness_XorExtractReadsWithoutChange : (core .fresh (zeros 48)).din.length = 48 ∧ 47 < 48 ∧
    (core .fresh (zeros 49)).din.length = 49 ∧ 49 > 48 ∧ 49 < 2 ^ 32 := by decide

/-- The first and the last round index. -/
theorem witness_RoundStepsInFlatIndices : 0 < 12 ∧ 11 < 12 := by decide

theorem witness_PermuteAppliesTheLastRounds : 12 ≤ 12 ∧ 6 ≤ 12 := by decide

theorem witness_PermutationIsABijection : 12 ≤ 12 := by decide

/-- 12 and 13 rounds, and none. -/
theorem witness_PermuteRunsOrRejects : (core .fresh []).din = [] ∧ 12 ≤ 12 ∧ 0 = 0 ∧ 13 > 12 ∧ 255 < 2 ^ 8 := by decide

/-- Hash mode: 47 and 48 bytes. Keyed mode: 44 and 45 bytes. -/
theorem witness_DownMixesThePaddedBlock :
    (core .fresh (zeros 47)).din.length = 47 ∧ (core .fresh (zeros 48)).din.length = 48 ∧
    (core .fresh (zeros 47)).cyclist.mode = .hash ∧ (core keyedUp (zeros 44)).din.length = 44 ∧
    (core keyedUp (zeros 45)).din.length = 45 ∧ (core keyedUp (zeros 44)).cyclist.mode = .keyed ∧ 47 < 2 ^ 32 := by decide

/-- 48 and 49 bytes of output, in both modes. -/
theorem witness_UpPermutesAndReturnsLeadingBytes : (core .fresh []).din = [] ∧ (core keyedUp []).din = [] ∧
    (core keyedUp []).cyclist.mode = .keyed ∧ 48 ≤ 48 ∧ 49 > 48 ∧ 49 < 2 ^ 32 := by decide

theorem witness_HashModeMasksDomainBytes : (core .fresh (zeros 3)).cyclist.mode = .hash ∧
    (0x03#8).getLsbD 0 = (0x01#8).getLsbD 0 := by decide

/-- At the rate and one byte past it, the smallest rate. -/
theorem witness_AbsorbAnyWalksItsChunks : 1 ≥ 1 ∧ (count 16).length ≤ 16 ∧ (count 17).length > 16 ∧ (count 2).length > 1 := by
  decide

/-- No byte, the rate, one byte past it, in both modes. -/
theorem witness_SqueezeAnyWalksItsChunks : Cyclist.fresh.rsqz.bytes = 16 ∧ keyedUp.rsqz.bytes = 24 ∧ 0 = 0 ∧
    (0 < 16 ∧ 16 ≤ Cyclist.fresh.rsqz.bytes) ∧ 17 > Cyclist.fresh.rsqz.bytes ∧ (0 < 24 ∧ 24 ≤ keyedUp.rsqz.bytes) ∧
    25 > keyedUp.rsqz.bytes := by decide

theorem witness_CryptWalksItsChunks : count 0 = [] ∧ count 1 ≠ [] ∧ (count 25).length = 25 := by decide

/-- Rates 1, 47 and 48 in Hash mode, 44 and 45 in Keyed mode, and 0. -/
theorem witness_AbsorbAnyCommandAbsorbs : (core .fresh (zeros 5)).din.length = 5 ∧
    (core .fresh (zeros 5)).cyclist.mode = .hash ∧ (core keyedUp (zeros 5)).din.length = 5 ∧
    (core keyedUp (zeros 5)).cyclist.mode = .keyed ∧ (1 ≤ 1 ∧ 1 ≤ 47) ∧ (1 ≤ 47 ∧ 47 ≤ 47) ∧ (1 ≤ 44 ∧ 44 ≤ 44) ∧
    48 > 47 ∧ 45 > 44 ∧ 48 < 2 ^ 8 ∧ 5 < 2 ^ 32 := by decide

theorem witness_SqueezeAnyCommandSqueezes : (core afterSeed3 []).din = [] ∧ 0 < 2 ^ 32 ∧ 2 ^ 32 - 1 < 2 ^ 32 := by decide

/-- No key; 43 and 44 bytes of key and id; a counter of none and of three bytes. -/
theorem witness_InstantiateMakesAFreshInstance : (core afterSeed3 (zeros 3)).din.length = 0 + 2 + 1 ∧
    (core .fresh (zeros 43)).din.length = 1 + 42 + 0 ∧ (1 > 0 ∧ 1 + 42 < 44) ∧
    (core .fresh (zeros 44)).din.length = 1 + 43 + 0 ∧ (1 > 0 ∧ 1 + 43 ≥ 44) ∧
    (core .fresh (zeros 21)).din.length = 16 + 2 + 3 ∧ 3 ≠ 0 ∧ 255 < 2 ^ 8 := by decide

theorem witness_AbsorbUsesTheInstanceRate : (core afterSeed3 ad3).din.length = 32 ∧ (core .fresh []).din.length = 0 ∧
    32 < 2 ^ 32 := by decide

/-- 16 and 17 bytes in Hash mode, 44 and 45 in Keyed mode. -/
theorem witness_AbsorbBlockGuardsThenDowns : (core .fresh (zeros 16)).din.length = 16 ∧
    (core .fresh (zeros 17)).din.length = 17 ∧ (core .fresh (zeros 16)).cyclist.rabs = .sixteen ∧
    (core keyedUp (zeros 44)).din.length = 44 ∧ (core keyedUp (zeros 45)).din.length = 45 ∧
    (core keyedUp (zeros 44)).cyclist.rabs = .fortyFour ∧ 45 < 2 ^ 32 := by decide

/-- The blocks of P5: 16, 16 and 8 bytes. -/
theorem witness_AbsorbBlockSequenceIsOneAbsorb :
    let first := count 16
    let rest := [hex 16 0x101112131415161718191a1b1c1d1e1f, hex 8 0x2021222324252627]
    let s := core .fresh []
    (∀ b ∈ (first :: rest).dropLast, b.length = s.cyclist.rabs.bytes) ∧
    (∀ b ∈ first :: rest, b.length ≤ s.cyclist.rabs.bytes) ∧ (∀ b ∈ rest, b ≠ []) := by decide +kernel

/-- No byte and 25 bytes, in both modes. -/
theorem witness_EncryptAndDecryptRunCrypt : (core .fresh (count 25)).din.length = 25 ∧ 25 > 0 ∧
    (core afterAd3 pt3).din.length = 32 ∧ (core .fresh []).din.length = 0 ∧ 25 < 2 ^ 32 := by decide

theorem witness_DecryptUndoesEncrypt : ∃ (s t : State) (r : Response), exec (.encrypt 32) s = .next t ∧ t.busy = .yes r :=
  ⟨core afterAd3 pt3, _, _, exec_of_length rfl, rfl⟩

theorem witness_SqueezeUsesItsDomainByte : (core afterHello []).din = [] ∧ 0 = 0 ∧ 32 < 2 ^ 32 := by decide

/-- In Keyed mode and in Hash mode. -/
theorem witness_SqueezeKeyNeedsKeyedMode : (core afterSeed3 []).din = [] ∧ (core afterSeed3 []).cyclist.mode = .keyed ∧
    (core .fresh []).din = [] ∧ (core .fresh []).cyclist.mode ≠ .keyed ∧ 32 < 2 ^ 32 := by decide

theorem witness_ShorterSqueezeIsAPrefix : ∃ (s ta tb : State) (ra rb : Response), 16 ≤ 17 ∧
    exec (.squeezeAny 0x40#8 16) s = .next ta ∧ ta.busy = .yes ra ∧ exec (.squeezeAny 0x40#8 17) s = .next tb ∧
    tb.busy = .yes rb :=
  ⟨core afterHello [], _, _, _, _, by decide, exec_of_length rfl, rfl, exec_of_length rfl, rfl⟩

/-- In Keyed mode and in Hash mode. -/
theorem witness_RatchetClearsTheFirst16Bytes : (core afterSeed3 []).din = [] ∧ (core afterSeed3 []).cyclist.mode = .keyed ∧
    (core .fresh []).din = [] ∧ (core .fresh []).cyclist.mode ≠ .keyed := by decide

theorem witness_CommandsRunTheirDownAndUpCalls : ∃ (i : Instr) (s t : State) (d : List Byte), i.tier ≠ .codec ∧
    exec i s = .next t ∧ t.busy = .yes ⟨.ok, d⟩ :=
  ⟨.encrypt 32, core afterAd3 pt3, _, _, by decide, exec_of_length rfl, rfl⟩

/-- Each row of the table: INSTANTIATE without and with a key, ABSORB, ABSORBBLOCK, ENCRYPT, DECRYPT, SQUEEZE, SQUEEZEKEY,
RATCHET. -/
theorem witness_CyclistCommandSummary :
    [Instr.instantiate 0 0 0, .instantiate 0 1 0, .absorb 32, .absorbBlock 0x03#8 32, .encrypt 32, .decrypt 32, .squeeze 32,
      .squeezeKey 32, .ratchet].all (fun i => i.tier == .cyclist) = true ∧
    [status (exec (.instantiate 0 0 0) (core .fresh [])), status (exec (.instantiate 0 1 0) (core .fresh (zeros 1))),
      status (exec (.absorb 32) (core afterSeed3 ad3)), status (exec (.absorbBlock 0x03#8 32) (core afterSeed3 ad3)),
      status (exec (.encrypt 32) (core afterAd3 pt3)), status (exec (.decrypt 32) (core afterAd3 ct3)),
      status (exec (.squeeze 32) (core afterHello [])), status (exec (.squeezeKey 32) (core afterSeed3 [])),
      status (exec .ratchet (core afterSeed3 []))] = List.replicate 9 (some .ok) := by decide +kernel

theorem witness_WellFramedRunsNeverStop : (facing .fresh [.command 0x2003000000000003#64 (zeros 3), .reset, .nothing,
    .command 0 []]).wellFramed = true := by decide

/-- The channel empty after the command, another command behind it, a step with nothing behind it. -/
theorem witness_AcceptedCommandIsAnswered :
    (facing .fresh [.command upWord []]).busy = .no ∧ ([] : List Byte).length = dinLengthOfWord upWord ∧
    (facing .fresh []).noResetNext = true ∧ (facing .fresh [.command 0 []]).noResetNext = true ∧
    (facing .fresh [.nothing]).noResetNext = true := by decide

/-- A tag that differs and the tag itself. -/
theorem witness_TagMismatchReleasesNoPlaintext : (Response.mk .ok [0x01#8]).dout ≠ [0x02#8] ∧
    (Response.mk .ok [0x01#8]).dout = [0x01#8] := by decide

end Sys2Proof.Tests
end

section
/-! PROOFS. What a command answers, split once into its cause of rejection and its result; what the result keeps. -/

namespace Sys2Proof.Machine

/-- The error a command is rejected with, if it is (R173). -/
def rejectionOf (i : Instr) (c : Cyclist) : Option ErrorKind :=
  match i with
  | .loadBytes len => if len ≠ Config.stateBytes then some .invalidStateLength else none
  | .xorStateBytes len => if len ≠ Config.stateBytes then some .invalidStateLength else none
  | .xorByteAt _ offset => if offset ≥ Config.stateBytes then some .invalidOperand else none
  | .xorExtract n => if n > Config.stateBytes then some .invalidOperand else none
  | .permute r => if r > Config.maxRounds then some .invalidRounds else none
  | .down _ len => if len > c.mode.maxBlock then some .invalidOperand else none
  | .up _ outLen => if outLen > Config.stateBytes then some .invalidOperand else none
  | .absorbAny _ rate _ => if rate = 0 ∨ rate > c.mode.maxBlock then some .invalidOperand else none
  | .instantiate idLen keyLen _ => if keyLen > 0 ∧ keyLen + idLen ≥ Config.rkin then some .keyTooLarge else none
  | .absorbBlock _ len => if len > c.rabs.bytes then some .invalidOperand else none
  | .squeezeKey _ => if c.mode = .hash then some .modeViolation else none
  | .ratchet => if c.mode = .hash then some .modeViolation else none
  | .storeBytes => none
  | .squeezeAny _ _ => none
  | .absorb _ => none
  | .encrypt _ => none
  | .decrypt _ => none
  | .squeeze _ => none

/-- The new Cyclist and the data out of a command that is not rejected. -/
def resultOf (i : Instr) (din : List Byte) (c : Cyclist) : Cyclist × List Byte :=
  match i with
  | .loadBytes _ => ({ c with lanes := Lanes.ofBytes din }, [])
  | .storeBytes => (c, c.lanes.toBytes)
  | .xorStateBytes _ => ({ c with lanes := c.lanes.xorBytes din }, [])
  | .xorByteAt b offset => ({ c with lanes := c.lanes.xorByteAt b offset }, [])
  | .xorExtract _ => (c, c.lanes.xorExtract din)
  | .permute r => ({ c with lanes := permute r c.lanes }, [])
  | .down cd _ => (c.down din cd, [])
  | .up cu outLen => (c.up cu, (c.up cu).output outLen)
  | .absorbAny cdFirst rate _ => (c.absorbAny din rate cdFirst, [])
  | .squeezeAny cuFirst outLen => c.squeezeAny outLen cuFirst
  | .instantiate idLen keyLen counterLen =>
    (instantiated (keyOf keyLen din) (idOf keyLen idLen din) (counterOf keyLen idLen counterLen din), [])
  | .absorb _ => (c.absorbAny din c.rabs.bytes Config.absorbCdInit, [])
  | .absorbBlock cd _ => (c.absorbOne din cd, [])
  | .encrypt _ => c.crypt .encrypt din
  | .decrypt _ => c.crypt .decrypt din
  | .squeeze n => c.squeezeAny n Config.squeezeCuInit
  | .squeezeKey n => c.squeezeAny n Config.squeezeKeyCu
  | .ratchet => (c.ratchet, [])

variable {i : Instr} {din : List Byte} {c : Cyclist}

/-- A command's body raises its rejection if it has one, and answers its result otherwise. -/
theorem bodyOf_eq_elim (i : Instr) (din : List Byte) (c : Cyclist) :
    bodyOf i din c = (rejectionOf i c).elim (.ok (resultOf i din c)) .error := by
  cases i with
  | storeBytes | squeezeAny | absorb | encrypt | decrypt | squeeze => rfl
  | squeezeKey | ratchet => cases hm : c.mode <;> simp [bodyOf, rejectionOf, resultOf, hm]
  | absorbAny cd rate len =>
    by_cases h0 : rate = 0
    · simp [bodyOf, rejectionOf, h0]
    · by_cases hr : rate > c.mode.maxBlock <;> simp [bodyOf, rejectionOf, resultOf, h0, hr]
  | _ =>
    simp only [bodyOf, rejectionOf, resultOf]
    split <;> rfl

theorem bodyOf_eq_ok_iff {r : Cyclist × List Byte} :
    bodyOf i din c = .ok r ↔ rejectionOf i c = none ∧ resultOf i din c = r := by
  rw [bodyOf_eq_elim]
  cases rejectionOf i c <;> simp

theorem bodyOf_eq_error_iff {e : ErrorKind} : bodyOf i din c = .error e ↔ rejectionOf i c = some e := by
  rw [bodyOf_eq_elim]
  cases rejectionOf i c <;> simp

/-- Everything a command that answers a next state can have done, by whether it has a cause of rejection. -/
theorem exec_result_cases {s t : State} (h : exec i s = .next t) :
    s.din.length = dinLength i ∧
      ((rejectionOf i s.cyclist = none ∧
          t = complete (resultOf i s.din s.cyclist).1 (resultOf i s.din s.cyclist).2 s) ∨
        ∃ e, rejectionOf i s.cyclist = some e ∧ t = reject e s) := by
  obtain ⟨hl, ⟨c, dout, hb, rfl⟩ | ⟨e, hb, rfl⟩⟩ := exec_cases h
  · obtain ⟨hn, hr⟩ := bodyOf_eq_ok_iff.1 hb
    exact ⟨hl, .inl ⟨hn, by rw [hr]⟩⟩
  · exact ⟨hl, .inr ⟨e, bodyOf_eq_error_iff.1 hb, rfl⟩⟩

/-- A command answered OK is completed with its result. -/
theorem exec_eq_complete {s t : State} {r : Response} (h : exec i s = .next t) (hb : t.busy = .yes r)
    (hr : r.status = .ok) : t = complete (resultOf i s.din s.cyclist).1 (resultOf i s.din s.cyclist).2 s := by
  obtain ⟨-, ⟨-, ht⟩ | ⟨e, -, rfl⟩⟩ := exec_result_cases h
  · exact ht
  · rw [reject_busy, Busy.yes.injEq] at hb
    subst hb
    cases hr

/-- The core rejects with the kinds R171 gives to it only. -/
theorem rejectionOf_raisedByCore {e : ErrorKind} (h : rejectionOf i c = some e) : e.raisedByCore = true := by
  cases i with
  | storeBytes | squeezeAny | absorb | encrypt | decrypt | squeeze => cases h
  | _ =>
    obtain ⟨-, ⟨⟩⟩ := Option.ite_none_right_eq_some.1 h
    rfl

/-- Crypt keeps MODE and the rates (R104). -/
theorem sameControl_crypt (dir : Direction) (msg : List Byte) (c : Cyclist) : SameControl (c.crypt dir msg).1 c :=
  sameControl_cryptList dir _ _ c

/-- Every command but INSTANTIATE keeps MODE and the rates (R64). -/
theorem sameControl_resultOf (hi : ∀ idLen keyLen counterLen, i ≠ .instantiate idLen keyLen counterLen) :
    SameControl (resultOf i din c).1 c := by
  cases i with
  | instantiate idLen keyLen counterLen => exact absurd rfl (hi _ _ _)
  | loadBytes | storeBytes | xorStateBytes | xorByteAt | xorExtract | permute => exact ⟨rfl, rfl, rfl⟩
  | down => exact sameControl_down _ _ c
  | up => exact sameControl_up _ c
  | absorbAny | absorb => exact sameControl_absorbAny _ _ _ c
  | absorbBlock => exact sameControl_absorbOne _ _ c
  | squeezeAny | squeeze | squeezeKey => exact sameControl_squeezeAny _ _ c
  | encrypt | decrypt => exact sameControl_crypt _ _ c
  | ratchet => exact sameControl_ratchet c

/-- INSTANTIATE with an empty key makes the fresh Cyclist (R120). -/
@[simp] theorem instantiated_nil (id counter : List Byte) : instantiated [] id counter = Cyclist.fresh := rfl

/-- INSTANTIATE with a key leaves the control fields of Keyed mode (R105, R120). -/
theorem sameControl_instantiated {key : List Byte} (hk : key ≠ []) (id counter : List Byte) :
    SameControl (instantiated key id counter) Cyclist.fresh.enterKeyed := by
  cases key with
  | nil => exact absurd rfl hk
  | cons b bs => exact sameControl_absorbKey _ _ _ _

/-- The key has the length the word gives it (R58). -/
theorem keyOf_length {keyLen idLen counterLen : Nat} (h : din.length = dinLength (.instantiate idLen keyLen counterLen)) :
    (keyOf keyLen din).length = keyLen := by
  have hl : din.length = keyLen + idLen + counterLen := h
  rw [keyOf, List.length_take]
  omega

/-- The codec tier keeps PHASE (R75). -/
theorem resultOf_phase_of_codec (hi : i.tier = .codec) : (resultOf i din c).1.phase = c.phase := by
  cases i with
  | loadBytes | storeBytes | xorStateBytes | xorByteAt | xorExtract | permute => rfl
  | _ => cases hi

theorem squeezeMore_phase (ns : List Nat) (c : Cyclist) (hc : c.phase = .up) : (Cyclist.squeezeMore ns c).1.phase = .up := by
  induction ns generalizing c with
  | nil => exact hc
  | cons n ns ih =>
    rw [squeezeMore_cons]
    exact ih _ (up_phase _ _)

/-- SqueezeAny ends in phase Up, or changes nothing when no byte is wanted (R103). -/
theorem squeezeAny_phase (n : Nat) (cu : Byte) (c : Cyclist) :
    (c.squeezeAny n cu).1.phase = if n = 0 then c.phase else .up := by
  unfold Cyclist.squeezeAny
  by_cases hn : n = 0
  · rw [hn, squeezeLengths_zero, squeezeList_nil, if_pos rfl]
  · rw [squeezeLengths_of_pos (squeezeRate_pos _) (Nat.pos_of_ne_zero hn), squeezeList_cons, if_neg hn]
    exact squeezeMore_phase _ _ (up_phase _ _)

end Sys2Proof.Machine
end

section
/-! PROOFS. How many bytes a command answers, and that 32 bits count them (R54). -/

namespace Sys2Proof.Machine

variable {rate : Nat}

/-- The lengths of a squeeze's chunks add up to the output wanted (R103). -/
theorem squeezeLengths_sum (hr : 1 ≤ rate) (n : Nat) : (squeezeLengths rate n).sum = n := by
  induction n using length_induction hr with
  | zero => rfl
  | step n hn ih =>
    rw [squeezeLengths_of_pos hr hn, List.sum_cons, ih]
    omega

/-- The chunks of a string make up the string (R102, R104). -/
theorem chunks_flatten (hr : 1 ≤ rate) (x : List Byte) : (chunks rate x).flatten = x := by
  induction x using chunk_induction hr with
  | nil => rfl
  | step x hx ih => rw [chunks_of_ne_nil hr hx, List.flatten_cons, ih, List.take_append_drop]

theorem squeezeMore_length (ns : List Nat) (c : Cyclist) : (Cyclist.squeezeMore ns c).2.length = ns.sum := by
  induction ns generalizing c with
  | nil => rfl
  | cons n ns ih => rw [squeezeMore_cons, List.length_append, ih, output_length, List.sum_cons]

theorem squeezeList_length (ns : List Nat) (cu : Byte) (c : Cyclist) :
    (Cyclist.squeezeList ns cu c).2.length = ns.sum := by
  cases ns with
  | nil => rfl
  | cons n ns => rw [squeezeList_cons, List.length_append, squeezeMore_length, output_length, List.sum_cons]

/-- SqueezeAny returns the number of bytes wanted (R103). -/
theorem squeezeAny_length (n : Nat) (cu : Byte) (c : Cyclist) : (c.squeezeAny n cu).2.length = n := by
  rw [Cyclist.squeezeAny, squeezeList_length, squeezeLengths_sum (squeezeRate_pos _)]

theorem cryptList_length (dir : Direction) (bs : List (List Byte)) (cu : Byte) (c : Cyclist) :
    (Cyclist.cryptList dir bs cu c).2.length = bs.flatten.length := by
  induction bs generalizing cu c with
  | nil => rfl
  | cons b bs ih => rw [cryptList_cons, List.length_append, ih, xorExtract_length, List.flatten_cons, List.length_append]

/-- Crypt returns as many bytes as it is given (R104). -/
theorem crypt_length (dir : Direction) (msg : List Byte) (c : Cyclist) : (c.crypt dir msg).2.length = msg.length := by
  rw [Cyclist.crypt, cryptList_length, chunks_flatten (by decide)]

/-- The length of the data out of a command that is not rejected, by its word alone. -/
def doutLength : Instr → Nat
  | .storeBytes => Config.stateBytes
  | .xorExtract n => n
  | .up _ outLen => outLen
  | .squeezeAny _ outLen => outLen
  | .encrypt len => len
  | .decrypt len => len
  | .squeeze n => n
  | .squeezeKey n => n
  | _ => 0

theorem resultOf_length {i : Instr} {din : List Byte} (c : Cyclist) (h : din.length = dinLength i) :
    (resultOf i din c).2.length = doutLength i := by
  cases i with
  | storeBytes => exact toBytes_length _
  | xorExtract => exact (xorExtract_length _ _).trans h
  | up => exact output_length _ _
  | squeezeAny | squeeze | squeezeKey => exact squeezeAny_length _ _ _
  | encrypt | decrypt => exact (crypt_length _ _ _).trans h
  | _ => rfl

/-- A well-formed command answers a number of bytes that 32 bits count (R54, R56). -/
theorem doutLength_lt_of_wf {i : Instr} (h : i.wf = true) : doutLength i < 2 ^ 32 := by
  cases i with
  | xorExtract | up | squeezeAny | squeeze | squeezeKey | encrypt | decrypt => exact of_decide_eq_true h
  | _ => simp [doutLength, Config.stateBytes]

end Sys2Proof.Machine

namespace Sys2Proof

theorem fitsByte_toNat (b : BitVec 8) : fitsByte b.toNat = true := decide_eq_true b.isLt

theorem fitsLen_toNat (n : BitVec 32) : fitsLen n.toNat = true := decide_eq_true n.isLt

theorem requireZero_eq_ok_iff {z : Bool} {i j : Instr} : requireZero z i = .ok j ↔ z = true ∧ i = j := by
  cases z <;> simp [requireZero]

/-- What the fields decode to is well formed: each operand is the number in its field (R56). -/
theorem wf_of_fields_decode {f : Fields} {i : Instr} (h : f.decode = .ok i) : i.wf = true := by
  unfold Fields.decode at h
  split at h
  case h_19 => cases h
  all_goals
    obtain ⟨-, rfl⟩ := requireZero_eq_ok_iff.1 h
    simp [Instr.wf, fitsByte_toNat, fitsLen_toNat]

/-- What a word decodes to is well formed (R57). -/
theorem wf_of_decode {cw : CommandWord} {i : Instr} (h : decode cw = .ok i) : i.wf = true :=
  wf_of_fields_decode h

end Sys2Proof
end

section
/-! PROOFS. What a step can do, and the invariants of R16 and R54 it keeps. -/

namespace Sys2Proof.Machine

variable {s t : State}

/-- A step that answers a next state delivers, resets, completes a decoded command, or rejects. -/
theorem step_next_cases (h : step s = .next t) :
    (∃ rest, t = deliver { s with inputs := rest }) ∨
    (∃ rest, t = applyReset rest s) ∨
    (∃ cw din rest i, decode cw = .ok i ∧ din.length = dinLength i ∧
      t = complete (resultOf i din s.cyclist).1 (resultOf i din s.cyclist).2 (accept din rest s)) ∨
    (∃ din rest e, e.raisedByCore = true ∧ t = reject e (accept din rest s)) := by
  obtain ⟨-, hs⟩ | ⟨rest, -, hs⟩ | ⟨rest, -, hs⟩ | ⟨_, _, _, _, -, -, hs⟩ | ⟨cw, din, rest, i, -, -, hd, hs⟩ |
    ⟨_, din, rest, _, -, -, -, hs⟩ := step_cases s <;> rw [hs] at h
  · cases h
    exact .inl ⟨s.inputs, rfl⟩
  · cases h
    exact .inl ⟨rest, rfl⟩
  · cases h
    exact .inr (.inl ⟨rest, rfl⟩)
  · cases h
    exact .inl ⟨s.inputs, rfl⟩
  · obtain ⟨hl, ⟨-, ht⟩ | ⟨e, he, ht⟩⟩ := exec_result_cases h
    · exact .inr (.inr (.inl ⟨cw, din, rest, i, hd, hl, ht⟩))
    · exact .inr (.inr (.inr ⟨din, rest, e, rejectionOf_raisedByCore he, ht⟩))
  · obtain ⟨-, ⟨_, _, hb, -⟩ | ⟨e, hb, ht⟩⟩ := transact_cases h
    · cases hb
    · cases hb
      exact .inr (.inr (.inr ⟨din, rest, .illegalCommand, rfl, ht⟩))

/-! ### The rates of the mode (R16) -/

theorem ratesAgree_iff (c : Cyclist) : c.ratesAgree = true ↔
    (c.mode = .hash ∧ c.rabs.bytes = 16 ∧ c.rsqz.bytes = 16) ∨
      (c.mode = .keyed ∧ c.rabs.bytes = 44 ∧ c.rsqz.bytes = 24) := by
  unfold Cyclist.ratesAgree
  cases c.mode <;> cases c.rabs <;> cases c.rsqz <;> decide

theorem SameControl.ratesAgree_eq {c d : Cyclist} (h : SameControl c d) : c.ratesAgree = d.ratesAgree := by
  simp only [Cyclist.ratesAgree, h.mode, h.rabs, h.rsqz]

@[simp] theorem ratesAgree_fresh : Cyclist.fresh.ratesAgree = true := rfl

/-- INSTANTIATE writes the rates of the mode it writes (R120). -/
theorem ratesAgree_instantiated (key id counter : List Byte) : (instantiated key id counter).ratesAgree = true := by
  by_cases hk : key = []
  · rw [hk, instantiated_nil, ratesAgree_fresh]
  · exact (sameControl_instantiated hk id counter).ratesAgree_eq

theorem ratesAgree_resultOf {i : Instr} {din : List Byte} {c : Cyclist} (h : c.ratesAgree = true) :
    (resultOf i din c).1.ratesAgree = true := by
  cases i with
  | instantiate idLen keyLen counterLen => exact ratesAgree_instantiated _ _ _
  | _ => exact (sameControl_resultOf (by simp)).ratesAgree_eq.trans h

theorem step_keeps_ratesAgree (hs : s.cyclist.ratesAgree = true) (h : step s = .next t) :
    t.cyclist.ratesAgree = true := by
  obtain ⟨rest, rfl⟩ | ⟨rest, rfl⟩ | ⟨cw, din, rest, i, -, -, rfl⟩ | ⟨din, rest, e, -, rfl⟩ := step_next_cases h
  · rwa [deliver_cyclist]
  · rw [applyReset_cyclist, ratesAgree_fresh]
  · exact ratesAgree_resultOf hs
  · rwa [reject_cyclist, accept_cyclist]

/-! ### The responses (R54, R171) -/

/-- Well-formedness of the responses listed and of the one held, if one is. -/
theorem responsesWellFormed_iff : s.responsesWellFormed = true ↔
    (∀ r ∈ s.received, r.wellFormed = true) ∧ ∀ r, s.busy = .yes r → r.wellFormed = true := by
  unfold State.responsesWellFormed
  cases s.busy <;> simp

theorem wellFormed_ok {dout : List Byte} (h : dout.length < 2 ^ 32) : (Response.mk .ok dout).wellFormed = true := by
  simpa [Response.wellFormed] using h

theorem wellFormed_error {e : ErrorKind} (h : e.raisedByCore = true) : (Response.mk (.error e) []).wellFormed = true := by
  simp [Response.wellFormed, h]

theorem responsesWellFormed_deliver (h : s.responsesWellFormed = true) : (deliver s).responsesWellFormed = true := by
  cases hb : s.busy with
  | no => rwa [deliver_of_idle s hb]
  | yes r =>
    obtain ⟨hrec, hbusy⟩ := responsesWellFormed_iff.1 h
    rw [deliver_of_busy s r hb]
    refine responsesWellFormed_iff.2 ⟨fun q hq => ?_, fun q hq => nomatch hq⟩
    rcases List.mem_append.1 hq with hq | hq
    · exact hrec q hq
    · exact List.mem_singleton.1 hq ▸ hbusy r hb

theorem step_keeps_responsesWellFormed (hs : s.responsesWellFormed = true) (h : step s = .next t) :
    t.responsesWellFormed = true := by
  have hrec : ∀ r ∈ s.received, r.wellFormed = true := (responsesWellFormed_iff.1 hs).1
  obtain ⟨rest, rfl⟩ | ⟨rest, rfl⟩ | ⟨cw, din, rest, i, hd, hl, rfl⟩ | ⟨din, rest, e, he, rfl⟩ := step_next_cases h
  · exact responsesWellFormed_deliver hs
  · exact responsesWellFormed_iff.2 ⟨hrec, fun r hr => nomatch hr⟩
  · refine responsesWellFormed_iff.2 ⟨hrec, fun r hr => ?_⟩
    cases hr
    exact wellFormed_ok (resultOf_length s.cyclist hl ▸ doutLength_lt_of_wf (wf_of_decode hd))
  · refine responsesWellFormed_iff.2 ⟨hrec, fun r hr => ?_⟩
    cases hr
    exact wellFormed_error he

theorem inv_iff : s.inv = true ↔ s.cyclist.ratesAgree = true ∧ s.responsesWellFormed = true := Bool.and_eq_true_iff

end Sys2Proof.Machine
end

section
/-! PROOFS. The steps of a round, lane by lane (41_permutation.md). -/

namespace Sys2Proof.Machine

/-- The spec's rotation is the library's (00_scope.md section 5). -/
theorem rotl32_eq_rotateLeft (v : Lane) {n : Nat} (hn : n < 32) : rotl32 v n = v.rotateLeft n := by
  rw [BitVec.rotateLeft_eq_rotateLeftAux_of_lt hn, rotl32, BitVec.rotateLeftAux]

/-- Theta's column parity in flat indices (R11, R81). -/
theorem columnParity_eq (s : Lanes) (x : Fin 4) :
    columnParity s x = s[x.val] ^^^ s[4 + x.val] ^^^ s[8 + x.val] := by
  fin_cases x <;> rfl

/-- Theta's effect with the library's rotation (R81). -/
theorem thetaEffect_eq (s : Lanes) (x : Fin 4) :
    thetaEffect s x = (columnParity s (x - 1)).rotateLeft 5 ^^^ (columnParity s (x - 1)).rotateLeft 14 := by
  rw [thetaEffect, rotl32_eq_rotateLeft _ (by decide), rotl32_eq_rotateLeft _ (by decide)]

theorem theta_at (s : Lanes) (y : Fin 3) (x : Fin 4) : (theta s).at y x = s.at y x ^^^ thetaEffect s x :=
  at_ofPlanes _ y x

theorem chi_at (s : Lanes) (y : Fin 3) (x : Fin 4) :
    (chi s).at y x = s.at y x ^^^ (~~~s.at (y + 1) x &&& s.at (y + 2) x) :=
  at_ofPlanes _ y x

/-- Rho-west in flat indices (R82). -/
theorem rhoWest_eq (s : Lanes) : rhoWest s = #v[s[0], s[1], s[2], s[3], s[7], s[4], s[5], s[6], s[8].rotateLeft 11,
    s[9].rotateLeft 11, s[10].rotateLeft 11, s[11].rotateLeft 11] := by
  simp only [← rotl32_eq_rotateLeft _ (by decide : 11 < 32)]
  rfl

/-- Rho-east in flat indices (R85). -/
theorem rhoEast_eq (s : Lanes) : rhoEast s = #v[s[0], s[1], s[2], s[3], s[4].rotateLeft 1, s[5].rotateLeft 1,
    s[6].rotateLeft 1, s[7].rotateLeft 1, s[10].rotateLeft 8, s[11].rotateLeft 8, s[8].rotateLeft 8,
    s[9].rotateLeft 8] := by
  simp only [← rotl32_eq_rotateLeft _ (by decide : 1 < 32), ← rotl32_eq_rotateLeft _ (by decide : 8 < 32)]
  rfl

/-- Iota changes lane 0 only (R83). -/
theorem iota_eq (i : Nat) (s : Lanes) : iota i s = #v[s[0] ^^^ roundConstant i, s[1], s[2], s[3], s[4], s[5], s[6], s[7],
    s[8], s[9], s[10], s[11]] := by
  refine Vector.ext fun k hk => ?_
  interval_cases k <;> simp [iota]

end Sys2Proof.Machine
end

section
/-! PROOFS. The statements about the state and its control fields (10_state.md), and the steps of a round
(41_permutation.md). -/

namespace Sys2Proof.Machine

/-- Settles O19: the rates and the responses are kept separately, by every case of a step. -/
theorem stepKeepsTheCoreInvariant : Obligations.StepKeepsTheCoreInvariant := by
  intro s t hinv hstep
  obtain ⟨hrates, hresp⟩ := inv_iff.1 hinv
  exact inv_iff.2 ⟨step_keeps_ratesAgree hrates hstep, step_keeps_responsesWellFormed hresp hstep⟩

/-- Settles O20: the two triples of R16 are what `Cyclist.ratesAgree` says, which every step keeps. -/
theorem stepKeepsRatesOfTheMode : Obligations.StepKeepsRatesOfTheMode := by
  refine ⟨(ratesAgree_iff _).1 ratesAgree_fresh, fun s t hs hstep => ?_⟩
  exact (ratesAgree_iff _).1 (step_keeps_ratesAgree ((ratesAgree_iff _).2 hs) hstep)

/-- Settles O21: a rejection keeps the Cyclist, a completion is the command's result. -/
theorem onlyInstantiateWritesModeAndRates : Obligations.OnlyInstantiateWritesModeAndRates := by
  intro i s t r hexec hbusy
  refine ⟨fun hi => ?_, fun idLen keyLen counterLen hi hok => ?_⟩
  · obtain ⟨-, ⟨-, rfl⟩ | ⟨e, -, rfl⟩⟩ := exec_result_cases hexec
    · obtain ⟨hmode, hrabs, hrsqz⟩ := sameControl_resultOf (din := s.din) (c := s.cyclist) hi
      exact ⟨hmode, hrabs, hrsqz⟩
    · exact ⟨rfl, rfl, rfl⟩
  · subst hi
    have hkey : (keyOf keyLen s.din).length = keyLen := keyOf_length (exec_cases hexec).1
    obtain rfl := exec_eq_complete hexec hbusy hok
    rw [complete_cyclist]
    refine ⟨fun h0 => ?_, fun hpos => ?_⟩
    · have hnil : keyOf keyLen s.din = [] := List.length_eq_zero_iff.1 (hkey.trans h0)
      simp only [resultOf, hnil, instantiated_nil]
      exact ⟨rfl, rfl, rfl⟩
    · have hne : keyOf keyLen s.din ≠ [] := List.ne_nil_of_length_pos (hkey.symm ▸ hpos)
      obtain ⟨hmode, hrabs, hrsqz⟩ := sameControl_instantiated hne (idOf keyLen idLen s.din)
        (counterOf keyLen idLen counterLen s.din)
      simp only [resultOf, hmode, hrabs, hrsqz]
      exact ⟨rfl, rfl, rfl⟩

/-- Settles O22: PHASE of each result. -/
theorem phaseIsTheLastOfUpAndDown : Obligations.PhaseIsTheLastOfUpAndDown := by
  intro i s t hexec ⟨d, hbusy⟩
  obtain rfl := exec_eq_complete hexec hbusy rfl
  rw [complete_cyclist]
  refine ⟨resultOf_phase_of_codec, ?_, ?_, ?_, ?_⟩
  · rintro cd len rfl
    exact down_phase _ _ _
  · rintro cu outLen rfl
    exact up_phase _ _
  · rintro cd rate len rfl
    exact absorbAny_phase _ _ _ _
  · rintro cu outLen rfl
    exact squeezeAny_phase _ _ _

/-- Settles O8: only a step with nothing presented takes an event off the channel. -/
theorem busyCoreDeliversItsResponse : Obligations.BusyCoreDeliversItsResponse := by
  intro s r hbusy hreset
  obtain ⟨hin, hs⟩ | ⟨rest, hin, hs⟩ | ⟨rest, hin, -⟩ | ⟨cw, din, rest, _, hin, -, hs⟩ | ⟨_, _, _, _, -, hidle, -⟩ |
    ⟨_, _, _, _, -, hidle, -⟩ := step_cases s
  · exact ⟨s.inputs, hs.trans (by rw [deliver_of_busy s r hbusy]), by simp [hin]⟩
  · exact ⟨rest, hs.trans (by rw [deliver_of_busy { s with inputs := rest } r hbusy]), by simp [hin]⟩
  · simp [State.noResetNext, hin] at hreset
  · exact ⟨s.inputs, hs.trans (by rw [deliver_of_busy s r hbusy]), by simp [hin]⟩
  · simp [hbusy] at hidle
  · simp [hbusy] at hidle

/-- Settles O18: the fresh Cyclist has the Hash rates, and no response is held or listed. -/
theorem resetMeetsTheCoreInvariant : Obligations.ResetMeetsTheCoreInvariant :=
  inv_iff.2 ⟨ratesAgree_fresh, responsesWellFormed_iff.2 ⟨by simp [State.reset], by simp [State.reset]⟩⟩

/-- Settles O33: each step of a round in flat indices, and their order by definition. -/
theorem roundStepsInFlatIndices : Obligations.RoundStepsInFlatIndices := by
  intro s
  refine ⟨fun _ _ => rfl, fun y => ?_, rhoWest_eq s, fun i _ => iota_eq i s, fun x => ?_, rhoEast_eq s, fun _ _ => rfl⟩
  · simp only [theta_at, thetaEffect_eq, columnParity_eq]
    exact ⟨rfl, rfl, rfl, rfl⟩
  · exact ⟨chi_at s 0 x, chi_at s 1 x, chi_at s 2 x⟩

end Sys2Proof.Machine
end

section
/-! PROOFS. The byte view (20_memory.md): the four bytes of a lane, and what loads and XORs do to each state byte. -/

namespace Sys2Proof.Machine

/-- A lane is the little-endian number of its four bytes (R31). -/
theorem lane_toNat_eq_bytes (v : Lane) :
    v.toNat = (v.extractLsb' (8 * 0) 8).toNat + 2 ^ 8 * (v.extractLsb' (8 * 1) 8).toNat +
      2 ^ 16 * (v.extractLsb' (8 * 2) 8).toNat + 2 ^ 24 * (v.extractLsb' (8 * 3) 8).toNat := by
  simp only [BitVec.extractLsb'_toNat, Nat.shiftRight_eq_div_pow]
  omega

/-- Shifting a byte to place `q` of a lane puts it there and zeros elsewhere (R73). -/
theorem extract_shiftedByte (b : Byte) {q j : Nat} (hq : q < 4) (hj : j < 4) :
    (b.setWidth 32 <<< (8 * q)).extractLsb' (8 * j) 8 = if j = q then b else 0 := by
  refine BitVec.eq_of_getLsbD_eq fun k hk => ?_
  simp only [BitVec.getLsbD_extractLsb', BitVec.getLsbD_shiftLeft, BitVec.getLsbD_setWidth]
  rcases Nat.lt_trichotomy j q with h | rfl | h
  · simp [h.ne, show 8 * j + k < 8 * q by omega]
  · simp [hk, show 8 * j + k < 32 by omega, show k < 32 by omega]
  · simp [h.ne', BitVec.getLsbD_of_ge b (8 * j + k - 8 * q) (by omega)]

/-- Every state byte has its place: a byte of a lane (R31). -/
theorem exists_place {k : Nat} (hk : k < 48) : ∃ i j, i < 12 ∧ j < 4 ∧ k = 4 * i + j :=
  forall_byte (P := fun k => ∃ i j, i < 12 ∧ j < 4 ∧ k = 4 * i + j) (fun i j hi hj => ⟨i, j, hi, hj, rfl⟩) hk

/-- A loaded state byte is the byte of the string at the same place (R70). -/
theorem byte_ofBytes (b : List Byte) {k : Nat} (hk : k < 48) : (Lanes.ofBytes b).byte k = b.getD k 0 := by
  obtain ⟨i, j, hi, hj, rfl⟩ := exists_place hk
  rw [byte_eq _ hi hj, Lanes.ofBytes, Vector.getElem_ofFn, extract_leLane b i j hj]

/-- XORing a string changes each state byte by the string's byte at the same place (R72). -/
theorem byte_xorBytes (s : Lanes) (b : List Byte) {k : Nat} (hk : k < 48) :
    (s.xorBytes b).byte k = s.byte k ^^^ b.getD k 0 := by
  obtain ⟨i, j, hi, hj, rfl⟩ := exists_place hk
  rw [byte_eq _ hi hj, byte_eq s hi hj, Lanes.xorBytes, Vector.getElem_ofFn, BitVec.extractLsb'_xor,
    extract_leLane b i j hj]
  rfl

/-- The lane that XORing a byte at byte `q` of lane `p` leaves at `i` (R73). -/
theorem getElem_xorByteAt (s : Lanes) (b : Byte) {p q i : Nat} (hp : p < 12) (hq : q < 4) (hi : i < 12) :
    (s.xorByteAt b (4 * p + q))[i] = if i = p then s[i] ^^^ (b.setWidth 32 <<< (8 * q)) else s[i] := by
  rw [Lanes.xorByteAt, show (4 * p + q) / 4 = p by omega, show (4 * p + q) % 4 = q by omega, getD_eq_getElem s hp,
    Vector.getElem_setIfInBounds hi]
  by_cases h : i = p
  · subst h
    simp
  · rw [if_neg h, if_neg (Ne.symm h)]

/-- XORing a byte at an offset changes the state byte there and no other (R73). -/
theorem byte_xorByteAt (s : Lanes) (b : Byte) {offset k : Nat} (ho : offset < 48) (hk : k < 48) :
    (s.xorByteAt b offset).byte k = if k = offset then s.byte k ^^^ b else s.byte k := by
  obtain ⟨p, q, hp, hq, rfl⟩ := exists_place ho
  obtain ⟨i, j, hi, hj, rfl⟩ := exists_place hk
  rw [byte_eq _ hi hj, byte_eq s hi hj, getElem_xorByteAt s b hp hq hi]
  by_cases h : i = p
  · subst h
    rw [if_pos rfl, BitVec.extractLsb'_xor, extract_shiftedByte b hq hj]
    simp only [Nat.add_left_cancel_iff]
    by_cases hjq : j = q
    · rw [if_pos hjq, if_pos hjq]
    · rw [if_neg hjq, if_neg hjq]
      exact BitVec.xor_zero
  · rw [if_neg h, if_neg (by omega)]

/-- XORing the same string twice restores the state (R72). -/
theorem xorBytes_xorBytes (s : Lanes) (b : List Byte) : (s.xorBytes b).xorBytes b = s :=
  lanes_ext_byte fun k hk => by
    rw [byte_xorBytes _ b hk, byte_xorBytes s b hk, BitVec.xor_assoc, BitVec.xor_self, BitVec.xor_zero]

/-- Loading a stored lane file gives it back (R32). -/
theorem ofBytes_toBytes (s : Lanes) : Lanes.ofBytes s.toBytes = s :=
  lanes_ext_byte fun k hk => by rw [byte_ofBytes _ hk, toBytes_getD s hk]

/-- Storing 48 loaded bytes gives them back (R32). -/
theorem toBytes_ofBytes {b : List Byte} (hb : b.length = 48) : (Lanes.ofBytes b).toBytes = b := by
  refine List.ext_getElem (by rw [toBytes_length, hb]) fun k hk hk' => ?_
  have h48 : k < 48 := hb ▸ hk'
  have h := (toBytes_getD (Lanes.ofBytes b) h48).trans (byte_ofBytes b h48)
  rwa [List.getD_eq_getElem _ _ hk, List.getD_eq_getElem _ _ hk'] at h

end Sys2Proof.Machine
end

section
/-! PROOFS. The statements about the byte view and the transaction (20_memory.md). -/

namespace Sys2Proof.Machine

/-- Settles O24: a byte is its place's quotient and remainder, a lane the number of its four bytes. -/
theorem byteViewIsLittleEndian : Obligations.ByteViewIsLittleEndian := by
  intro s
  refine ⟨toBytes_length s, fun k hk => ⟨toBytes_getD s hk, ?_⟩, fun i => ?_⟩
  · rw [Lanes.byte, BitVec.extractLsb'_toNat, Nat.shiftRight_eq_div_pow]
  · have hbyte {j : Nat} (hj : j < 4) : s.byte (4 * i.val + j) = s[i].extractLsb' (8 * j) 8 := byte_eq s i.isLt hj
    rw [hbyte (by decide : 1 < 4), hbyte (by decide : 2 < 4), hbyte (by decide : 3 < 4), ← Nat.add_zero (4 * i.val),
      hbyte (by decide : 0 < 4)]
    exact lane_toNat_eq_bytes s[i]

/-- Settles O25: the two round trips, each byte by byte. -/
theorem loadAndStoreAreInverse : Obligations.LoadAndStoreAreInverse :=
  ⟨fun _ hb => toBytes_ofBytes hb, ofBytes_toBytes⟩

/-- Settles O26: each XOR on one state byte; two XORs of one string cancel. -/
theorem xorsActByteByByte : Obligations.XorsActByteByByte :=
  ⟨fun s b _ _ ho hk => byte_xorByteAt s b ho hk,
    fun s b _ => ⟨fun _ hk => byte_xorBytes s b hk, xorBytes_xorBytes s b⟩⟩

/-- Settles O13: completion and rejection both keep the channel, consume `din` and make a response. -/
theorem everyCommandIsOneTransaction : Obligations.EveryCommandIsOneTransaction := by
  intro i s t h
  obtain ⟨-, ⟨c, dout, -, rfl⟩ | ⟨e, -, rfl⟩⟩ := exec_cases h
  · exact ⟨complete_inputs c dout s, complete_received c dout s, complete_din c dout s, _, complete_busy c dout s⟩
  · exact ⟨reject_inputs e s, reject_received e s, reject_din e s, _, reject_busy e s⟩

end Sys2Proof.Machine
end

section
/-! PROOFS. The decoder inverted, the match/mask table field by field, and the words each of them leaves illegal
(30_encoding.md). -/

namespace Sys2Proof

/-! ### Decoding and encoding (R51, R52, R56) -/

theorem toNat_ofNat_of_fitsByte {n : Nat} (h : fitsByte n = true) : (BitVec.ofNat 8 n).toNat = n :=
  (BitVec.toNat_ofNat n _).trans (Nat.mod_eq_of_lt (of_decide_eq_true h))

theorem toNat_ofNat_of_fitsLen {n : Nat} (h : fitsLen n = true) : (BitVec.ofNat 32 n).toNat = n :=
  (BitVec.toNat_ofNat n _).trans (Nat.mod_eq_of_lt (of_decide_eq_true h))

/-- The fields that spell a well-formed command decode to it, format by format (R52). -/
theorem fields_decode_of_wf {i : Instr} (h : i.wf = true) : i.fields.decode = .ok i := by
  cases i with
  | storeBytes | ratchet => rfl
  | loadBytes | xorStateBytes | xorExtract | absorb | encrypt | decrypt | squeeze | squeezeKey =>
    simp [Instr.fields, Fields.decode, Fields.formatL, requireZero, toNat_ofNat_of_fitsLen h]
  | xorByteAt => simp [Instr.fields, Fields.decode, Fields.formatAB, requireZero, toNat_ofNat_of_fitsByte h]
  | permute => simp [Instr.fields, Fields.decode, Fields.formatA, requireZero, toNat_ofNat_of_fitsByte h]
  | down | up | squeezeAny | absorbBlock =>
    simp [Instr.fields, Fields.decode, Fields.formatAL, requireZero, toNat_ofNat_of_fitsLen h]
  | absorbAny =>
    obtain ⟨hrate, hlen⟩ := Bool.and_eq_true_iff.1 h
    simp [Instr.fields, Fields.decode, Fields.formatABL, requireZero, toNat_ofNat_of_fitsByte hrate,
      toNat_ofNat_of_fitsLen hlen]
  | instantiate =>
    obtain ⟨hbytes, hctr⟩ := Bool.and_eq_true_iff.1 h
    obtain ⟨hid, hkey⟩ := Bool.and_eq_true_iff.1 hbytes
    simp [Instr.fields, Fields.decode, Fields.formatK, requireZero, toNat_ofNat_of_fitsByte hid,
      toNat_ofNat_of_fitsByte hkey, toNat_ofNat_of_fitsLen hctr]

/-- Decoding the word of a well-formed command gives the command. -/
theorem decode_encode {i : Instr} (h : i.wf = true) : decode (encode i) = .ok i := by
  rw [decode, encode, fieldsOf_word, fields_decode_of_wf h]

/-- A command that fields decode to is spelled by those fields: the unused ones are zero, the used ones the operands. -/
theorem fields_of_fields_decode {f : Fields} {i : Instr} (h : f.decode = .ok i) : i.fields = f := by
  obtain ⟨opc, a, b, c, len⟩ := f
  unfold Fields.decode at h
  split at h
  case h_19 => cases h
  all_goals
    obtain ⟨hz, rfl⟩ := requireZero_eq_ok_iff.1 h
    simp_all [Instr.fields]

/-- A word that decodes is the word of what it decodes to (R57). -/
theorem encode_of_decode {cw : CommandWord} {i : Instr} (h : decode cw = .ok i) : encode i = cw := by
  rw [encode, fields_of_fields_decode h, word_fieldsOf]

/-! ### Words that decode, format by format (R52, R57) -/

theorem exists_requireZero_iff {z : Bool} {j : Instr} : (∃ i, requireZero z j = .ok i) ↔ z = true := by
  simp [requireZero_eq_ok_iff]

variable {f : Fields}

@[simp] theorem exists_formatN_iff {j : Instr} :
    (∃ i, f.formatN j = .ok i) ↔ f.a = 0 ∧ f.b = 0 ∧ f.c = 0 ∧ f.len = 0 := by
  simp [Fields.formatN, exists_requireZero_iff, and_assoc]

@[simp] theorem exists_formatL_iff {mk : Nat → Instr} : (∃ i, f.formatL mk = .ok i) ↔ f.a = 0 ∧ f.b = 0 ∧ f.c = 0 := by
  simp [Fields.formatL, exists_requireZero_iff, and_assoc]

@[simp] theorem exists_formatAB_iff {mk : Byte → Nat → Instr} : (∃ i, f.formatAB mk = .ok i) ↔ f.c = 0 ∧ f.len = 0 := by
  simp [Fields.formatAB, exists_requireZero_iff]

@[simp] theorem exists_formatA_iff {mk : Nat → Instr} : (∃ i, f.formatA mk = .ok i) ↔ f.b = 0 ∧ f.c = 0 ∧ f.len = 0 := by
  simp [Fields.formatA, exists_requireZero_iff, and_assoc]

@[simp] theorem exists_formatAL_iff {mk : Byte → Nat → Instr} : (∃ i, f.formatAL mk = .ok i) ↔ f.b = 0 ∧ f.c = 0 := by
  simp [Fields.formatAL, exists_requireZero_iff]

@[simp] theorem exists_formatABL_iff {mk : Byte → Nat → Nat → Instr} : (∃ i, f.formatABL mk = .ok i) ↔ f.c = 0 := by
  simp [Fields.formatABL, exists_requireZero_iff]

@[simp] theorem exists_formatK_iff {mk : Nat → Nat → Nat → Instr} : (∃ i, f.formatK mk = .ok i) ↔ f.a = 0 := by
  simp [Fields.formatK, exists_requireZero_iff]

/-- The fields of an illegal word: an opcode that is not listed, or a field its format does not use is not zero
(R52, R57). -/
def Fields.Illegal (f : Fields) : Prop :=
  f.opc ∉ [0x01#8, 0x02#8, 0x03#8, 0x04#8, 0x05#8, 0x10#8, 0x20#8, 0x21#8, 0x22#8, 0x23#8, 0x30#8, 0x31#8, 0x32#8, 0x33#8,
    0x34#8, 0x35#8, 0x36#8, 0x37#8] ∨
  (f.opc ∈ [0x02#8, 0x37#8] ∧ ¬(f.a = 0 ∧ f.b = 0 ∧ f.c = 0 ∧ f.len = 0)) ∨
  (f.opc ∈ [0x01#8, 0x03#8, 0x05#8, 0x31#8, 0x33#8, 0x34#8, 0x35#8, 0x36#8] ∧ ¬(f.a = 0 ∧ f.b = 0 ∧ f.c = 0)) ∨
  (f.opc = 0x04#8 ∧ ¬(f.c = 0 ∧ f.len = 0)) ∨
  (f.opc = 0x10#8 ∧ ¬(f.b = 0 ∧ f.c = 0 ∧ f.len = 0)) ∨
  (f.opc ∈ [0x20#8, 0x21#8, 0x23#8, 0x32#8] ∧ ¬(f.b = 0 ∧ f.c = 0)) ∨
  (f.opc = 0x22#8 ∧ f.c ≠ 0) ∨
  (f.opc = 0x30#8 ∧ f.a ≠ 0)

theorem exists_decode_iff_not_illegal (f : Fields) : (∃ i, f.decode = .ok i) ↔ ¬f.Illegal := by
  unfold Fields.decode
  split
  case h_19 => simp_all [Fields.Illegal]
  all_goals
    rename_i h
    simp [Fields.Illegal, h]

/-! ### The match/mask table (R55) -/

/-- A row selects a word field by field. -/
theorem and_mask_eq_pattern_iff (row : OpcodeRow) (cw : CommandWord) :
    cw &&& row.mask = row.pattern ↔
      Fields.mk ((fieldsOf cw).opc &&& (fieldsOf row.mask).opc) ((fieldsOf cw).a &&& (fieldsOf row.mask).a)
        ((fieldsOf cw).b &&& (fieldsOf row.mask).b) ((fieldsOf cw).c &&& (fieldsOf row.mask).c)
        ((fieldsOf cw).len &&& (fieldsOf row.mask).len) = fieldsOf row.pattern := by
  have h := selects_word (f := fieldsOf cw) (word_fieldsOf row.mask).symm (word_fieldsOf row.pattern).symm
  rwa [word_fieldsOf, OpcodeRow.selects, beq_iff_eq] at h

theorem and_byteMask (x : BitVec 8) : x &&& 255#8 = x := BitVec.and_allOnes

theorem and_lenMask (x : BitVec 32) : x &&& 4294967295#32 = x := BitVec.and_allOnes

/-- The words some row selects are those that decode. -/
theorem exists_row_iff_exists_decode (cw : CommandWord) :
    (∃ row ∈ opcodeRows, cw &&& row.mask = row.pattern) ↔ ∃ i, decode cw = .ok i := by
  simp only [and_mask_eq_pattern_iff, opcodeRows, decode]
  generalize fieldsOf cw = f
  unfold Fields.decode
  split
  case h_19 => simp_all [fieldsOf, and_byteMask]
  all_goals
    rename_i h
    simp [h, fieldsOf, and_byteMask, and_lenMask]

/-- A word that no row selects does not decode. -/
theorem decode_eq_error_of_no_row {cw : CommandWord} (h : ∀ row ∈ opcodeRows, cw &&& row.mask ≠ row.pattern) :
    ∃ e, decode cw = .error e := by
  cases hd : decode cw with
  | error e => exact ⟨e, rfl⟩
  | ok i =>
    obtain ⟨row, hrow, hs⟩ := (exists_row_iff_exists_decode cw).2 ⟨i, hd⟩
    exact absurd hs (h row hrow)

/-- The word of every command is selected by the row of the command's mnemonic. -/
theorem ownRow (i : Instr) : Laws.OwnRow.Statement i := by
  cases i with
  | loadBytes len => exact Laws.OwnRow.loadBytes len
  | storeBytes => exact Laws.OwnRow.storeBytes
  | xorStateBytes len => exact Laws.OwnRow.xorStateBytes len
  | xorByteAt b offset => exact Laws.OwnRow.xorByteAt b offset
  | xorExtract n => exact Laws.OwnRow.xorExtract n
  | permute r => exact Laws.OwnRow.permute r
  | down cd len => exact Laws.OwnRow.down cd len
  | up cu outLen => exact Laws.OwnRow.up cu outLen
  | absorbAny cdFirst rate len => exact Laws.OwnRow.absorbAny cdFirst rate len
  | squeezeAny cuFirst outLen => exact Laws.OwnRow.squeezeAny cuFirst outLen
  | instantiate idLen keyLen counterLen => exact Laws.OwnRow.instantiate idLen keyLen counterLen
  | absorb len => exact Laws.OwnRow.absorb len
  | absorbBlock cd len => exact Laws.OwnRow.absorbBlock cd len
  | encrypt len => exact Laws.OwnRow.encrypt len
  | decrypt len => exact Laws.OwnRow.decrypt len
  | squeeze n => exact Laws.OwnRow.squeeze n
  | squeezeKey n => exact Laws.OwnRow.squeezeKey n
  | ratchet => exact Laws.OwnRow.ratchet

/-- The opcode a row fixes. -/
def OpcodeRow.opc (row : OpcodeRow) : BitVec 8 := (fieldsOf row.pattern).opc

theorem opcodeRows_opc_nodup : (opcodeRows.map OpcodeRow.opc).Nodup := by decide

theorem opcodeRows_mask_opc : ∀ row ∈ opcodeRows, (fieldsOf row.mask).opc = 255#8 := by decide

/-- Every row fixes the opcode of the words it selects. -/
theorem opc_eq_of_selects {row : OpcodeRow} {cw : CommandWord} (hrow : row ∈ opcodeRows) (h : row.selects cw = true) :
    row.opc = (fieldsOf cw).opc := by
  have hfields := (and_mask_eq_pattern_iff row cw).1 (beq_iff_eq.1 h)
  rw [OpcodeRow.opc, ← hfields, opcodeRows_mask_opc row hrow, and_byteMask]

/-- No two rows select the same word: no two fix the same opcode (R55). -/
theorem row_unique {row row' : OpcodeRow} {cw : CommandWord} (hrow : row ∈ opcodeRows) (hrow' : row' ∈ opcodeRows)
    (h : row.selects cw = true) (h' : row'.selects cw = true) : row = row' :=
  List.inj_on_of_nodup_map opcodeRows_opc_nodup hrow hrow'
    ((opc_eq_of_selects hrow h).trans (opc_eq_of_selects hrow' h').symm)

/-- If a row selects a word, the rows that select it are that one. -/
theorem filter_selects_eq_singleton {row : OpcodeRow} {cw : CommandWord} (hrow : row ∈ opcodeRows)
    (h : row.selects cw = true) : (opcodeRows.filter fun r => r.selects cw) = [row] := by
  have hcongr : ∀ r ∈ opcodeRows, r.selects cw = (r == row) := fun r hr => by
    rw [Bool.eq_iff_iff, beq_iff_eq]
    exact ⟨fun hs => row_unique hr hrow hs h, fun he => he ▸ h⟩
  rw [List.filter_congr hcongr, List.filter_beq, List.count_eq_one_of_mem opcodeRows_opc_nodup.of_map hrow]
  rfl

end Sys2Proof

namespace Sys2Proof.Machine

/-! ### The data-in length and the step on a presented word (R50, R53, R57) -/

theorem dinLengthOfWord_of_ok {cw : CommandWord} {i : Instr} (h : decode cw = .ok i) :
    dinLengthOfWord cw = dinLength i := by rw [dinLengthOfWord, h]

theorem dinLengthOfWord_of_error {cw : CommandWord} {e : DecodeReject} (h : decode cw = .error e) :
    dinLengthOfWord cw = 0 := by rw [dinLengthOfWord, h]

/-- An idle core accepts and runs the word presented (R50). -/
theorem step_of_command {s : State} {cw : CommandWord} {din : List Byte} {rest : List HostInput} (hb : s.busy = .no)
    (hi : s.inputs = .command cw din :: rest) : step s = runCommand cw (accept din rest s) := by
  simp only [step, hi, hb]

theorem runCommand_of_ok {cw : CommandWord} {i : Instr} (h : decode cw = .ok i) (s : State) :
    runCommand cw s = exec i s := by simp only [runCommand, h]

theorem runCommand_of_error {cw : CommandWord} {e : DecodeReject} (h : decode cw = .error e) (s : State) :
    runCommand cw s = rejectIllegal s := by simp only [runCommand, h]

/-- An illegal word with no data in is rejected (R57). -/
theorem rejectIllegal_of_no_din {s : State} (h : s.din = []) : rejectIllegal s = .next (reject .illegalCommand s) :=
  transact_of_length (by rw [h]; rfl)

/-- What the fields that spell a well-formed command say of its data in (R53). -/
theorem dinLength_of_fields {i : Instr} (h : i.wf = true) :
    (i.fields.opc ∈ [0x01#8, 0x03#8, 0x05#8, 0x31#8, 0x33#8, 0x34#8, 0x20#8, 0x32#8, 0x22#8] →
      dinLength i = i.fields.len.toNat) ∧
    (i.fields.opc = 0x30#8 → dinLength i = i.fields.c.toNat + i.fields.b.toNat + i.fields.len.toNat) ∧
    (i.fields.opc ∈ [0x02#8, 0x37#8, 0x04#8, 0x10#8, 0x21#8, 0x23#8, 0x35#8, 0x36#8] → dinLength i = 0) := by
  cases i with
  | loadBytes | xorStateBytes | xorExtract | absorb | encrypt | decrypt | down | absorbBlock =>
    simp [Instr.fields, dinLength, toNat_ofNat_of_fitsLen h]
  | absorbAny =>
    obtain ⟨-, hlen⟩ := Bool.and_eq_true_iff.1 h
    simp [Instr.fields, dinLength, toNat_ofNat_of_fitsLen hlen]
  | instantiate =>
    obtain ⟨hbytes, hctr⟩ := Bool.and_eq_true_iff.1 h
    obtain ⟨hid, hkey⟩ := Bool.and_eq_true_iff.1 hbytes
    simp [Instr.fields, dinLength, toNat_ofNat_of_fitsByte hid, toNat_ofNat_of_fitsByte hkey,
      toNat_ofNat_of_fitsLen hctr]
  | storeBytes | ratchet | xorByteAt | permute | up | squeezeAny | squeeze | squeezeKey =>
    simp [Instr.fields, dinLength]

end Sys2Proof.Machine
end

section
/-! PROOFS. An accepted and a rejected command; absorbing a single chunk, and the Cyclist INSTANTIATE makes (R102, R105,
R120). -/

namespace Sys2Proof.Machine

variable {rate : Nat}

/-- An accepted command completes with its result. -/
theorem exec_of_accepted {i : Instr} {s : State} (hl : s.din.length = dinLength i) (h : rejectionOf i s.cyclist = none) :
    exec i s = .next (complete (resultOf i s.din s.cyclist).1 (resultOf i s.din s.cyclist).2 s) := by
  rw [exec_of_length hl, bodyOf_eq_ok_iff.2 ⟨h, rfl⟩, conclude_ok]

/-- A rejected command answers its error. -/
theorem exec_of_rejected {i : Instr} {s : State} {e : ErrorKind} (hl : s.din.length = dinLength i)
    (h : rejectionOf i s.cyclist = some e) : exec i s = .next (reject e s) := by
  rw [exec_of_length hl, bodyOf_eq_error_iff.2 h, conclude_error]

/-- A string of at most `rate` bytes is absorbed in one chunk, the empty string too (R102). -/
theorem absorbChunks_of_length_le {x : List Byte} (hx : x.length ≤ rate) : absorbChunks rate x = [x] := by
  cases x with
  | nil => rfl
  | cons b bs =>
    have hr : 1 ≤ rate := le_trans (by simp) hx
    rw [absorbChunks, chunks_of_ne_nil hr (List.cons_ne_nil b bs), List.take_of_length_le hx, List.drop_of_length_le hx,
      chunks_nil]

/-- Absorbing at most `rate` bytes is one guarded Down (R102). -/
theorem absorbAny_of_length_le {x : List Byte} (hx : x.length ≤ rate) (cd : Byte) (c : Cyclist) :
    c.absorbAny x rate cd = c.absorbOne x cd := by
  rw [Cyclist.absorbAny, absorbChunks_of_length_le hx, absorbList_cons, absorbList_nil]

/-- In phase Up the guard does nothing (R102). -/
theorem absorbOne_of_up {c : Cyclist} (hc : c.phase = .up) (block : List Byte) (cd : Byte) :
    c.absorbOne block cd = c.down block cd := by
  rw [Cyclist.absorbOne, Cyclist.guardUp, hc]

theorem keyBuffer_length (key id : List Byte) : (keyBuffer key id).length = key.length + id.length + 1 := by
  simp [keyBuffer, Nat.add_assoc]

/-- The counter path, by the counter's length (R105). -/
theorem absorbCounter_eq (counter : List Byte) (c : Cyclist) :
    c.absorbCounter counter =
      if counter.length = 0 then c else c.absorbAny counter Config.counterRate Config.absorbCdMain := by
  cases counter <;> rfl

/-- Key material that fits one chunk is absorbed by one Down on the all-zero Keyed Cyclist, then the counter
(R105, R120). -/
theorem instantiated_of_key {key id : List Byte} (hk : key ≠ []) (hlen : key.length + id.length < Config.rkin)
    (counter : List Byte) :
    instantiated key id counter =
      (Cyclist.fresh.enterKeyed.down (keyBuffer key id) Config.absorbKeyCd).absorbCounter counter := by
  have hfit : (keyBuffer key id).length ≤ Cyclist.fresh.enterKeyed.rabs.bytes :=
    (keyBuffer_length key id).trans_le hlen
  cases key with
  | nil => exact absurd rfl hk
  | cons b bs =>
    rw [instantiated, Cyclist.absorbKey, absorbAny_of_length_le hfit, absorbOne_of_up (enterKeyed_phase Cyclist.fresh)]

/-! ### The split of INSTANTIATE's data in (R58) -/

variable {idLen keyLen counterLen : Nat} {din : List Byte}

theorem idOf_length (h : din.length = dinLength (.instantiate idLen keyLen counterLen)) :
    (idOf keyLen idLen din).length = idLen := by
  have hl : din.length = keyLen + idLen + counterLen := h
  rw [idOf, List.length_take, List.length_drop]
  omega

/-- The counter is all that follows key and id (R58). -/
theorem counterOf_eq_drop (h : din.length = dinLength (.instantiate idLen keyLen counterLen)) :
    counterOf keyLen idLen counterLen din = din.drop (keyLen + idLen) := by
  have hl : din.length = keyLen + idLen + counterLen := h
  exact List.take_of_length_le (by rw [List.length_drop]; omega)

theorem counterOf_length (h : din.length = dinLength (.instantiate idLen keyLen counterLen)) :
    (counterOf keyLen idLen counterLen din).length = counterLen := by
  have hl : din.length = keyLen + idLen + counterLen := h
  rw [counterOf_eq_drop h, List.length_drop]
  omega

end Sys2Proof.Machine
end

section
/-! PROOFS. What of a command depends on no lane and no data byte: its cause of rejection, the control fields it leaves, the
shapes of its calls (R62, R210). -/

namespace Sys2Proof.Machine

/-- Two Cyclists that differ in their lanes only. -/
structure SameFlow (c d : Cyclist) : Prop where
  /-- The same mode and rates. -/
  control : SameControl c d
  /-- The same phase. -/
  phase : c.phase = d.phase

variable {i : Instr} {c c' : Cyclist} {din din' : List Byte}

theorem rejectionOf_congr (i : Instr) (h : SameControl c c') : rejectionOf i c = rejectionOf i c' := by
  cases i <;> simp only [rejectionOf, h.mode, h.rabs]

/-! ### Lengths of chunks -/

theorem chunksFrom_lengths (rate fuel : Nat) (x : List Byte) :
    (chunksFrom rate fuel x).map List.length = lengthsFrom rate fuel x.length := by
  induction fuel generalizing x with
  | zero => rfl
  | succ fuel ih =>
    cases x with
    | nil => rfl
    | cons b bs =>
      have hdrop : (b :: bs).length - rate = bs.length + 1 - min (bs.length + 1) rate := by
        rw [List.length_cons]
        omega
      rw [chunksFrom, List.map_cons, ih, List.length_take, List.length_drop, hdrop, Nat.min_comm]
      rfl

/-- The chunks of a string have the lengths of the chunks of an output as long (R102, R103, R104). -/
theorem chunks_lengths (rate : Nat) (x : List Byte) : (chunks rate x).map List.length = squeezeLengths rate x.length :=
  chunksFrom_lengths _ _ _

theorem absorbChunks_lengths (rate : Nat) (x : List Byte) :
    (absorbChunks rate x).map List.length = if x.length = 0 then [0] else squeezeLengths rate x.length := by
  cases x with
  | nil => rfl
  | cons b bs => exact chunks_lengths _ _

/-! ### Shapes of calls -/

/-- AbsorbAny's calls have shapes that the lengths of its chunks fix (R102). -/
theorem absorbCalls_shapes (bs : List (List Byte)) {bs' : List (List Byte)} (cd : Byte) (ph : Phase)
    (h : bs.map List.length = bs'.map List.length) :
    (absorbCalls bs cd ph).map Call.shape = (absorbCalls bs' cd ph).map Call.shape := by
  induction bs generalizing bs' cd ph with
  | nil =>
    obtain rfl := List.map_eq_nil_iff.1 h.symm
    rfl
  | cons b bs ih =>
    cases bs' with
    | nil => cases h
    | cons b' bs' =>
      obtain ⟨hb, hbs⟩ := List.cons.inj h
      simp [absorbCalls, Call.shape, hb, ih _ _ hbs]

theorem absorbAnyCalls_shapes {x x' : List Byte} (rate : Nat) (cd : Byte) (ph : Phase) (h : x.length = x'.length) :
    (absorbCalls (absorbChunks rate x) cd ph).map Call.shape =
      (absorbCalls (absorbChunks rate x') cd ph).map Call.shape :=
  absorbCalls_shapes _ _ _ (by rw [absorbChunks_lengths, absorbChunks_lengths, h])

/-- Crypt absorbs as many bytes as the chunk has, in both directions (R104). -/
theorem plaintext_length (dir : Direction) {chunk out : List Byte} (h : out.length = chunk.length) :
    (dir.plaintext chunk out).length = chunk.length := by
  cases dir with
  | encrypt => rfl
  | decrypt => exact h

/-- Crypt's calls have shapes that the lengths of its chunks fix (R104). -/
theorem cryptCalls_shapes (dir : Direction) (bs : List (List Byte)) {bs' : List (List Byte)} (cu : Byte) (c c' : Cyclist)
    (h : bs.map List.length = bs'.map List.length) :
    (cryptCalls dir bs cu c).map Call.shape = (cryptCalls dir bs' cu c').map Call.shape := by
  induction bs generalizing bs' cu c c' with
  | nil =>
    obtain rfl := List.map_eq_nil_iff.1 h.symm
    rfl
  | cons b bs ih =>
    cases bs' with
    | nil => cases h
    | cons b' bs' =>
      obtain ⟨hb, hbs⟩ := List.cons.inj h
      simp only [cryptCalls, List.map_cons, Call.shape, plaintext_length dir (xorExtract_length _ _), hb]
      rw [ih _ _ _ hbs]

theorem keyCalls_eq (key id counter : List Byte) : keyCalls key id counter =
    absorbCalls (absorbChunks Config.rkin (keyBuffer key id)) Config.absorbKeyCd .up ++
      if counter.length = 0 then []
      else absorbCalls (absorbChunks Config.counterRate counter) Config.absorbCdMain .down := by
  cases counter <;> rfl

theorem instantiateCalls_eq (key id counter : List Byte) :
    instantiateCalls key id counter = if key.length = 0 then [] else keyCalls key id counter := by
  cases key <;> rfl

/-- INSTANTIATE's calls have shapes that the lengths of key, id and counter fix (R105, R120). -/
theorem instantiateCalls_shapes {key key' id id' counter counter' : List Byte} (hkey : key.length = key'.length)
    (hid : id.length = id'.length) (hctr : counter.length = counter'.length) :
    (instantiateCalls key id counter).map Call.shape = (instantiateCalls key' id' counter').map Call.shape := by
  have hbuf : (keyBuffer key id).length = (keyBuffer key' id').length := by
    rw [keyBuffer_length, keyBuffer_length, hkey, hid]
  simp only [instantiateCalls_eq, keyCalls_eq, apply_ite (List.map Call.shape), List.map_append, hkey, hctr,
    absorbAnyCalls_shapes _ _ _ hbuf, absorbAnyCalls_shapes _ _ _ hctr]

/-- The calls of a command have shapes that its operands, the length of its data in and the control fields fix
(R62, R210). -/
theorem callsOf_shapes (i : Instr) (hd : din.length = din'.length) (h : SameFlow c c') :
    (callsOf i din c).map Call.shape = (callsOf i din' c').map Call.shape := by
  cases i with
  | loadBytes | storeBytes | xorStateBytes | xorByteAt | xorExtract | permute | up => rfl
  | down => simp [callsOf, Call.shape, hd]
  | absorbAny cd rate len =>
    rw [callsOf, callsOf, h.phase]
    exact absorbAnyCalls_shapes _ _ _ hd
  | absorb len =>
    rw [callsOf, callsOf, h.phase, h.control.rabs]
    exact absorbAnyCalls_shapes _ _ _ hd
  | absorbBlock => simp [callsOf, Call.shape, hd, h.phase]
  | squeezeAny | squeeze | squeezeKey => rw [callsOf, callsOf, h.control.rsqz]
  | encrypt | decrypt => exact cryptCalls_shapes _ _ _ _ _ (by rw [chunks_lengths, chunks_lengths, hd])
  | ratchet => simp [callsOf, Call.shape]
  | instantiate => exact instantiateCalls_shapes (by simp [keyOf, hd]) (by simp [idOf, hd]) (by simp [counterOf, hd])

/-! ### The control fields after a command -/

/-- Crypt ends in phase Down, or changes nothing for an empty message (R104). -/
theorem cryptList_phase (dir : Direction) (bs : List (List Byte)) (cu : Byte) (c : Cyclist) :
    (Cyclist.cryptList dir bs cu c).1.phase = if bs = [] then c.phase else .down := by
  induction bs generalizing cu c with
  | nil => rfl
  | cons b bs ih =>
    rw [cryptList_cons, ih, down_phase, ite_self]
    rfl

theorem chunks_eq_nil_iff {rate : Nat} (hr : 1 ≤ rate) {x : List Byte} : chunks rate x = [] ↔ x = [] := by
  refine ⟨fun h => ?_, fun h => h ▸ rfl⟩
  by_contra hx
  rw [chunks_of_ne_nil hr hx] at h
  cases h

theorem crypt_phase (dir : Direction) (msg : List Byte) (c : Cyclist) :
    (c.crypt dir msg).1.phase = if msg.length = 0 then c.phase else .down := by
  simp only [Cyclist.crypt, cryptList_phase, chunks_eq_nil_iff (by decide : 1 ≤ Config.rkout), List.length_eq_zero_iff]

/-- AbsorbKey ends in phase Down, with a counter or without (R105). -/
theorem absorbKey_phase (key id counter : List Byte) (c : Cyclist) : (c.absorbKey key id counter).phase = .down := by
  cases counter <;> exact absorbAny_phase _ _ _ _

theorem instantiated_phase (key id counter : List Byte) :
    (instantiated key id counter).phase = if key.length = 0 then .up else .down := by
  cases key with
  | nil => rfl
  | cons b bs => exact absorbKey_phase _ _ _ _

theorem instantiated_mode (key id counter : List Byte) :
    (instantiated key id counter).mode = if key.length = 0 then .hash else .keyed := by
  cases key with
  | nil => rfl
  | cons b bs => exact (sameControl_instantiated (List.cons_ne_nil b bs) id counter).mode

theorem keyOf_length_congr (keyLen : Nat) (hd : din.length = din'.length) :
    (keyOf keyLen din).length = (keyOf keyLen din').length := by simp [keyOf, hd]

theorem resultOf_mode_congr (i : Instr) (hd : din.length = din'.length) (h : SameFlow c c') :
    (resultOf i din c).1.mode = (resultOf i din' c').1.mode := by
  cases i with
  | instantiate idLen keyLen counterLen =>
    simp only [resultOf, instantiated_mode, keyOf_length_congr keyLen hd]
  | _ =>
    exact (sameControl_resultOf (by simp)).mode.trans (h.control.mode.trans (sameControl_resultOf (by simp)).mode.symm)

theorem resultOf_phase_congr (i : Instr) (hd : din.length = din'.length) (h : SameFlow c c') :
    (resultOf i din c).1.phase = (resultOf i din' c').1.phase := by
  cases i with
  | loadBytes | storeBytes | xorStateBytes | xorByteAt | xorExtract | permute =>
    exact (resultOf_phase_of_codec rfl).trans (h.phase.trans (resultOf_phase_of_codec rfl).symm)
  | down | absorbBlock => simp only [resultOf, Cyclist.absorbOne, down_phase]
  | up => simp only [resultOf, up_phase]
  | absorbAny | absorb | ratchet => simp only [resultOf, Cyclist.ratchet, absorbAny_phase]
  | squeezeAny | squeeze | squeezeKey => simp only [resultOf, squeezeAny_phase, h.phase]
  | encrypt | decrypt => simp only [resultOf, crypt_phase, hd, h.phase]
  | instantiate idLen keyLen counterLen =>
    simp only [resultOf, instantiated_phase, keyOf_length_congr keyLen hd]

end Sys2Proof.Machine
end

section
/-! PROOFS. The statements about the encoding (30_encoding.md), the data independence of the control flow, and
INSTANTIATE. -/

namespace Sys2Proof.Machine

/-- Settles O2: the word's fields are those that spell the command, and each format reads them back. -/
theorem decodeOfEncodeIsTheCommand : Obligations.DecodeOfEncodeIsTheCommand := fun _ h => decode_encode h

/-- Settles O3: the unused fields of a word that decodes are zero, the used ones its operands. -/
theorem encodeOfDecodeIsTheWord : Obligations.EncodeOfDecodeIsTheWord :=
  fun _ _ h => ⟨wf_of_decode h, encode_of_decode h⟩

/-- Settles O4: the command's own row selects its word, and no two rows fix the same opcode. -/
theorem decoderAgreesWithMatchAndMask : Obligations.DecoderAgreesWithMatchAndMask := by
  refine ⟨fun cw i h => ?_, fun cw => (exists_row_iff_exists_decode cw).symm⟩
  obtain ⟨row, hrow, hname, hsel⟩ := ownRow i
  rw [encode_of_decode h] at hsel
  rw [filter_selects_eq_singleton hrow hsel, List.map_singleton, hname]

/-- Settles O5: the words no row selects are those that do not decode, which an idle core rejects. -/
theorem illegalWordsAreAnsweredIllegalCommand : Obligations.IllegalWordsAreAnsweredIllegalCommand := by
  refine ⟨fun cw => ?_, by decide, fun cw rest s hcw hb hi => ?_⟩
  · have hrows : (∀ row ∈ opcodeRows, cw &&& row.mask ≠ row.pattern) ↔
        ¬∃ row ∈ opcodeRows, cw &&& row.mask = row.pattern := by simp
    rw [hrows, exists_row_iff_exists_decode, decode, exists_decode_iff_not_illegal, not_not]
    rfl
  · obtain ⟨e, he⟩ := decode_eq_error_of_no_row hcw
    rw [step_of_command hb hi, runCommand_of_error he, rejectIllegal_of_no_din (accept_din _ _ _)]
    rfl

/-- Settles O6: an illegal word asks for no data in, a legal one for what the fields of its command say. -/
theorem dataInLengthIsFixedByTheWord : Obligations.DataInLengthIsFixedByTheWord := by
  refine fun cw => ⟨fun h => ?_, fun h => ?_⟩
  · obtain ⟨e, he⟩ := decode_eq_error_of_no_row h
    exact dinLengthOfWord_of_error he
  · obtain ⟨i, hi⟩ := (exists_row_iff_exists_decode cw).1 h
    rw [dinLengthOfWord_of_ok hi, ← fields_of_fields_decode hi]
    exact dinLength_of_fields (wf_of_decode hi)

/-- Settles O17: two runs have the same cause of rejection, or results with the same control fields, output length and
shapes of calls. -/
theorem controlFlowReadsNoData : Obligations.ControlFlowReadsNoData := by
  intro i s s' t t' r r' hd hmode hphase hrabs hrsqz hexec hexec' hbusy hbusy'
  have hflow : SameFlow s.cyclist s'.cyclist := ⟨⟨hmode, hrabs, hrsqz⟩, hphase⟩
  have hrej := rejectionOf_congr i hflow.control
  have hcalls := callsOf_shapes i hd hflow
  obtain ⟨hl, ⟨hn, rfl⟩ | ⟨e, he, rfl⟩⟩ := exec_result_cases hexec <;>
    obtain ⟨hl', ⟨hn', rfl⟩ | ⟨e', he', rfl⟩⟩ := exec_result_cases hexec'
  · cases hbusy
    cases hbusy'
    exact ⟨rfl, (resultOf_length _ hl).trans (resultOf_length _ hl').symm, resultOf_mode_congr i hd hflow,
      resultOf_phase_congr i hd hflow, fun _ => hcalls⟩
  · rw [hrej, he'] at hn
    cases hn
  · rw [hrej, hn'] at he
    cases he
  · rw [hrej, he'] at he
    cases he
    cases hbusy
    cases hbusy'
    exact ⟨rfl, rfl, hmode, hphase, fun _ => hcalls⟩

/-- Settles O45: the key material of an accepted INSTANTIATE fits the one chunk of a Keyed Down. -/
theorem instantiateMakesAFreshInstance : Obligations.InstantiateMakesAFreshInstance := by
  intro idLen keyLen counterLen s hlen zeros key id counter start keyed
  have hl : s.din.length = dinLength (.instantiate idLen keyLen counterLen) := hlen
  have hkey : (keyOf keyLen s.din).length = keyLen := keyOf_length hl
  have hid : (idOf keyLen idLen s.din).length = idLen := idOf_length hl
  refine ⟨fun hb hc hn => ?_, fun h0 => ?_, fun hpos hfit => ?_, fun hpos hbig => ?_⟩
  · have hwf : (Instr.instantiate idLen keyLen counterLen).wf = true := by
      simpa [Instr.wf, fitsByte, fitsLen, and_assoc] using ⟨hb, hc, hn⟩
    simpa only [encode, Instr.fields] using decode_encode hwf
  · have hok : rejectionOf (.instantiate idLen keyLen counterLen) s.cyclist = none :=
      if_neg fun h => h.1.ne' h0
    have hnil : keyOf keyLen s.din = [] := List.length_eq_zero_iff.1 (hkey.trans h0)
    rw [exec_of_accepted hl hok, resultOf, hnil, instantiated_nil]
    rfl
  · have hok : rejectionOf (.instantiate idLen keyLen counterLen) s.cyclist = none :=
      if_neg fun h => not_le.2 hfit h.2
    have hne : keyOf keyLen s.din ≠ [] := List.ne_nil_of_length_pos (hkey.symm ▸ hpos)
    rw [exec_of_accepted hl hok, resultOf, instantiated_of_key hne (by rwa [hkey, hid]), absorbCounter_eq,
      counterOf_length hl, counterOf_eq_drop hl, keyBuffer, hid]
    rfl
  · have hrej : rejectionOf (.instantiate idLen keyLen counterLen) s.cyclist = some .keyTooLarge :=
      if_pos ⟨hpos, hbig⟩
    rw [exec_of_rejected hl hrej]
    rfl

/-- Settles O1: each word evaluated. -/
theorem vectorWordsDecode : Obligations.VectorWordsDecode := by
  unfold Obligations.VectorWordsDecode
  decide

/-- Settles O7: the idle core accepts the command and runs what its word decodes to. -/
theorem stepRunsTheDecodedCommand : Obligations.StepRunsTheDecodedCommand := by
  intro s cw din rest i hb hi hd
  rw [step_of_command hb hi, runCommand_of_ok hd]
  rfl

end Sys2Proof.Machine
end

section
/-! PROOFS. What the codec commands make of lanes and bytes (40_codec.md), and how a command without data in ends. -/

namespace Sys2Proof.Machine

/-! ### Lanes and bytes the codec commands answer -/

/-- The little-endian lane of a string is the number of its four bytes (R70). -/
theorem leLane_toNat (b : List Byte) (i : Nat) :
    (leLane b i).toNat = (b.getD (4 * i) 0).toNat + 2 ^ 8 * (b.getD (4 * i + 1) 0).toNat +
      2 ^ 16 * (b.getD (4 * i + 2) 0).toNat + 2 ^ 24 * (b.getD (4 * i + 3) 0).toNat := by
  rw [lane_toNat_eq_bytes, extract_leLane b i 0 (by decide), extract_leLane b i 1 (by decide),
    extract_leLane b i 2 (by decide), extract_leLane b i 3 (by decide), Nat.add_zero]

theorem getElem_ofBytes (b : List Byte) (i : Fin 12) : (Lanes.ofBytes b)[i] = leLane b i.val :=
  Vector.getElem_ofFn i.isLt

theorem getElem_xorBytes (s : Lanes) (b : List Byte) (i : Fin 12) : (s.xorBytes b)[i] = s[i] ^^^ leLane b i.val :=
  Vector.getElem_ofFn i.isLt

/-- Byte `j` of lane `i` among the 48 stored bytes, as a number (R71). -/
theorem toBytes_getD_toNat (s : Lanes) (i : Fin 12) {j : Nat} (hj : j < 4) :
    (s.toBytes.getD (4 * i.val + j) 0).toNat = s[i].toNat / 2 ^ (8 * j) % 2 ^ 8 := by
  rw [toBytes_getD s (by omega), byte_eq s i.isLt hj, BitVec.extractLsb'_toNat, Nat.shiftRight_eq_div_pow]
  rfl

/-- Each extracted byte is the string's byte XORed with the state byte at the same place (R74). -/
theorem xorExtract_getD (s : Lanes) (b : List Byte) {k : Nat} (hk : k < b.length) :
    (s.xorExtract b).getD k 0 = b.getD k 0 ^^^ s.byte k := by
  have hmem : k < (s.memRead 0 b.length).length := by rwa [memRead_length]
  have hbyte := memRead_getD s 0 b.length k hk
  rw [List.getD_eq_getElem _ _ hmem, Nat.zero_add] at hbyte
  rw [List.getD_eq_getElem _ _ (by rwa [xorExtract_length]), List.getD_eq_getElem _ _ hk, ← hbyte]
  exact List.getElem_zipWith

/-! ### Completion and rejection without data in -/

theorem complete_of_no_din {s : State} (h : s.din = []) (c : Cyclist) (dout : List Byte) :
    complete c dout s = { s with cyclist := c, busy := .yes ⟨.ok, dout⟩ } := by
  rw [complete, ← h]

theorem reject_of_no_din {s : State} (h : s.din = []) (e : ErrorKind) :
    reject e s = { s with busy := .yes ⟨.error e, []⟩ } := by
  rw [reject, ← h]

end Sys2Proof.Machine
end

section
/-! PROOFS. The statements about the codec commands (40_codec.md). -/

namespace Sys2Proof.Machine

/-- Settles O23: a rejection keeps the whole Cyclist, a result of the codec tier all but the lanes. -/
theorem codecTierWorksOnLanesOnly : Obligations.CodecTierWorksOnLanesOnly := by
  intro i s t r htier hexec hbusy
  obtain ⟨hl, ⟨-, rfl⟩ | ⟨e, -, rfl⟩⟩ := exec_result_cases hexec
  · cases hbusy
    have hne : ∀ idLen keyLen counterLen, i ≠ .instantiate idLen keyLen counterLen := by
      rintro _ _ _ rfl
      cases htier
    obtain ⟨hmode, hrabs, hrsqz⟩ := sameControl_resultOf (din := s.din) (c := s.cyclist) hne
    refine ⟨hmode, resultOf_phase_of_codec htier, hrabs, hrsqz, fun _ => (resultOf_length s.cyclist hl).trans ?_⟩
    cases i with
    | loadBytes | storeBytes | xorStateBytes | xorByteAt | xorExtract | permute => rfl
    | _ => cases htier
  · cases hbusy
    exact ⟨rfl, rfl, rfl, rfl, fun hok => nomatch hok⟩

/-- Settles O27: each lane loaded is the number of its four bytes. -/
theorem loadBytesReplacesTheLanes : Obligations.LoadBytesReplacesTheLanes := by
  intro len s hl
  refine ⟨fun hlen => decode_encode (i := .loadBytes len) (decide_eq_true hlen), fun h48 => ?_, fun h48 => ?_⟩
  · refine ⟨Lanes.ofBytes s.din, exec_of_accepted hl (if_neg (not_not.2 h48)), fun i => ?_⟩
    rw [getElem_ofBytes, leLane_toNat]
  · exact exec_of_rejected hl (if_pos h48)

/-- Settles O28: the stored bytes are those of the lanes. -/
theorem storeBytesReturnsTheState : Obligations.StoreBytesReturnsTheState := by
  refine ⟨decode_encode (i := .storeBytes) rfl, fun s hdin => ⟨s.cyclist.lanes.toBytes, ?_, toBytes_length _,
    fun i j hj => toBytes_getD_toNat _ i hj⟩⟩
  have hl : s.din.length = dinLength .storeBytes := by rw [hdin]; rfl
  rw [exec_of_accepted hl rfl, complete_of_no_din hdin]
  rfl

/-- Settles O29: the lanes XORed in are those LOADBYTES would make of the string. -/
theorem xorStateBytesMixesIn48Bytes : Obligations.XorStateBytesMixesIn48Bytes := by
  intro len s hl
  refine ⟨fun hlen => decode_encode (i := .xorStateBytes len) (decide_eq_true hlen), fun h48 => ?_, fun h48 => ?_⟩
  · refine ⟨s.cyclist.lanes.xorBytes s.din, Lanes.ofBytes s.din, exec_of_accepted hl (if_neg (not_not.2 h48)),
      fun i => ?_⟩
    rw [getElem_xorBytes, getElem_ofBytes, leLane_toNat]
    exact ⟨rfl, rfl⟩
  · exact exec_of_rejected hl (if_pos h48)

/-- Settles O30: an offset below 48 is a byte of one of the twelve lanes. -/
theorem xorByteAtChangesOneByte : Obligations.XorByteAtChangesOneByte := by
  intro b offset s hdin
  have hl : s.din.length = dinLength (.xorByteAt b offset) := by rw [hdin]; rfl
  refine ⟨fun hoff => decode_encode (i := .xorByteAt b offset) (decide_eq_true hoff), fun h48 => ?_, fun h48 => ?_⟩
  · refine ⟨s.cyclist.lanes.xorByteAt b offset, ?_, fun i => ?_⟩
    · rw [exec_of_accepted hl (if_neg (not_le.2 h48)), complete_of_no_din hdin]
      rfl
    · have hlane := getElem_xorByteAt s.cyclist.lanes b (p := offset / 4) (q := offset % 4) (by omega) (by omega) i.isLt
      rwa [Nat.div_add_mod] at hlane
  · rw [exec_of_rejected hl (if_pos h48), reject_of_no_din hdin]

/-- Settles O31: the bytes returned one by one, the Cyclist kept. -/
theorem xorExtractReadsWithoutChange : Obligations.XorExtractReadsWithoutChange := by
  intro n s hl
  refine ⟨fun hn => decode_encode (i := .xorExtract n) (decide_eq_true hn), fun h48 => ?_, fun h48 => ?_⟩
  · exact ⟨s.cyclist.lanes.xorExtract s.din, exec_of_accepted hl (if_neg (not_lt.2 h48)),
      (xorExtract_length _ _).trans hl, fun i hi => xorExtract_getD _ _ (hl ▸ hi)⟩
  · exact exec_of_rejected hl (if_pos h48)

end Sys2Proof.Machine
end

section
/-! PROOFS. Each step of a round is a bijection on lane files, and so is every `permute(r)`; how `permute` composes
(41_permutation.md). -/

namespace Sys2Proof.Machine

open Function (Bijective Involutive)

/-! ### Rotating a lane -/

theorem rotateLeft_rotateLeft (v : Lane) (m n : Nat) : (v.rotateLeft m).rotateLeft n = v.rotateLeft (m + n) := by
  refine BitVec.eq_of_getMsbD_eq fun i hi => ?_
  simp only [BitVec.getMsbD_rotateLeft, hi, Nat.mod_lt, decide_true, Bool.true_and, Nat.ofNat_pos]
  congr 1
  omega

theorem rotateLeft_xor (v w : Lane) (n : Nat) : (v ^^^ w).rotateLeft n = v.rotateLeft n ^^^ w.rotateLeft n := by
  refine BitVec.eq_of_getMsbD_eq fun i hi => ?_
  simp only [BitVec.getMsbD_xor, BitVec.getMsbD_rotateLeft, hi, decide_true, Bool.true_and]

/-- A whole number of turns leaves a lane as it is. -/
theorem rotateLeft_turns (v : Lane) (k : Nat) : v.rotateLeft (32 * k) = v := by
  refine BitVec.eq_of_getMsbD_eq fun i hi => ?_
  simp [BitVec.getMsbD_rotateLeft, hi, Nat.mod_eq_of_lt]

@[simp] theorem rotateLeft_zero (v : Lane) : v.rotateLeft 0 = v := rotateLeft_turns v 0

/-! ### Theta (R81)

Theta adds a shifted copy of the column parity to itself. Doing it twice doubles the lane distance and both rotations, since
the mixed terms cancel; after five doublings the two rotations are whole turns and what is added cancels too. -/

/-- Theta's effect with its lane distance and its two rotations multiplied by `k`. -/
def scaledThetaEffect (k : Nat) (s : Lanes) (x : Fin 4) : Lane :=
  (columnParity s (x - k • 1)).rotateLeft (k * 5) ^^^ (columnParity s (x - k • 1)).rotateLeft (k * 14)

/-- Theta with the scaled effect: theta applied `k` times, for a power of two `k`. -/
def scaledTheta (k : Nat) (s : Lanes) : Lanes := Lanes.ofPlanes fun y x => s.at y x ^^^ scaledThetaEffect k s x

theorem scaledTheta_at (k : Nat) (s : Lanes) (y : Fin 3) (x : Fin 4) :
    (scaledTheta k s).at y x = s.at y x ^^^ scaledThetaEffect k s x :=
  at_ofPlanes _ y x

theorem scaledTheta_one : scaledTheta 1 = theta := by
  refine funext fun s => lanes_ext fun y x => ?_
  rw [scaledTheta_at, theta_at, thetaEffect_eq, scaledThetaEffect, one_nsmul]

/-- A column has three lanes, so what is added to each of them is added once to its parity. -/
theorem columnParity_scaledTheta (k : Nat) (s : Lanes) (x : Fin 4) :
    columnParity (scaledTheta k s) x = columnParity s x ^^^ scaledThetaEffect k s x := by
  simp only [columnParity, scaledTheta_at]
  grind

/-- What both sides of a XOR contain cancels. -/
theorem xor_shared_cancel (a b p q r : Lane) : a ^^^ (p ^^^ q) ^^^ (b ^^^ (q ^^^ r)) = a ^^^ b ^^^ (p ^^^ r) :=
  calc a ^^^ (p ^^^ q) ^^^ (b ^^^ (q ^^^ r)) = a ^^^ b ^^^ (p ^^^ r) ^^^ (q ^^^ q) := by ac_rfl
    _ = a ^^^ b ^^^ (p ^^^ r) := by rw [BitVec.xor_self, BitVec.xor_zero]

theorem scaledThetaEffect_scaledTheta (k : Nat) (s : Lanes) (x : Fin 4) :
    scaledThetaEffect k (scaledTheta k s) x = scaledThetaEffect k s x ^^^ scaledThetaEffect (k + k) s x := by
  simp only [scaledThetaEffect, columnParity_scaledTheta, rotateLeft_xor, rotateLeft_rotateLeft, sub_sub, add_nsmul, add_mul]
  rw [Nat.add_comm (k * 14) (k * 5), xor_shared_cancel]

theorem scaledTheta_scaledTheta (k : Nat) (s : Lanes) : scaledTheta k (scaledTheta k s) = scaledTheta (k + k) s := by
  refine lanes_ext fun y x => ?_
  simp only [scaledTheta_at, scaledThetaEffect_scaledTheta, BitVec.xor_assoc]
  rw [xor_cancel_left]

theorem scaledTheta_32 : scaledTheta 32 = id := by
  refine funext fun s => lanes_ext fun y x => ?_
  rw [scaledTheta_at, scaledThetaEffect, rotateLeft_turns, rotateLeft_turns, BitVec.xor_self]
  exact BitVec.xor_zero

theorem scaledTheta_bijective_of_double {k : Nat} (h : Bijective (scaledTheta (k + k))) : Bijective (scaledTheta k) := by
  have hcomp : scaledTheta k ∘ scaledTheta k = scaledTheta (k + k) := funext (scaledTheta_scaledTheta k)
  rw [← hcomp] at h
  exact ⟨h.injective.of_comp, h.surjective.of_comp⟩

theorem theta_bijective : Bijective theta := by
  have h32 : Bijective (scaledTheta 32) := scaledTheta_32 ▸ Function.bijective_id
  have h8 : Bijective (scaledTheta 8) := scaledTheta_bijective_of_double (scaledTheta_bijective_of_double h32)
  have h2 : Bijective (scaledTheta 2) := scaledTheta_bijective_of_double (scaledTheta_bijective_of_double h8)
  exact scaledTheta_one ▸ scaledTheta_bijective_of_double h2

/-! ### Rho-west and rho-east (R82, R85) -/

/-- Each plane `y` moved by `d y` lanes, its lanes rotated by `n y`. -/
def shiftPlanes (d : Fin 3 → Fin 4) (n : Fin 3 → Nat) (s : Lanes) : Lanes :=
  Lanes.ofPlanes fun y x => (s.at y (x - d y)).rotateLeft (n y)

theorem shiftPlanes_at (d : Fin 3 → Fin 4) (n : Fin 3 → Nat) (s : Lanes) (y : Fin 3) (x : Fin 4) :
    (shiftPlanes d n s).at y x = (s.at y (x - d y)).rotateLeft (n y) :=
  at_ofPlanes _ y x

theorem shiftPlanes_shiftPlanes (d e : Fin 3 → Fin 4) (m n : Fin 3 → Nat) (s : Lanes) :
    shiftPlanes e n (shiftPlanes d m s) = shiftPlanes (d + e) (m + n) s := by
  refine lanes_ext fun y x => ?_
  simp only [shiftPlanes_at, rotateLeft_rotateLeft, Pi.add_apply, sub_sub, add_comm (e y)]

theorem shiftPlanes_turns (n : Fin 3 → Nat) (s : Lanes) : shiftPlanes 0 (32 • n) s = s := by
  refine lanes_ext fun y x => ?_
  simp only [shiftPlanes_at, Pi.smul_apply, smul_eq_mul, rotateLeft_turns, Pi.zero_apply, sub_zero]

/-- Moving back and turning 31 times further undoes a shift of the planes. -/
theorem shiftPlanes_bijective (d : Fin 3 → Fin 4) (n : Fin 3 → Nat) : Bijective (shiftPlanes d n) := by
  refine Function.bijective_iff_has_inverse.2 ⟨shiftPlanes (-d) (31 • n), fun s => ?_, fun s => ?_⟩
  · rw [shiftPlanes_shiftPlanes, add_neg_cancel, ← succ_nsmul', shiftPlanes_turns]
  · rw [shiftPlanes_shiftPlanes, neg_add_cancel, ← succ_nsmul, shiftPlanes_turns]

theorem rhoWest_eq_shiftPlanes : rhoWest = shiftPlanes ![0, 1, 0] ![0, 0, 11] := by
  refine funext fun s => lanes_ext fun y x => ?_
  rw [shiftPlanes_at, rhoWest, at_ofPlanes]
  fin_cases y <;> simp [rotl32_eq_rotateLeft]

theorem rhoEast_eq_shiftPlanes : rhoEast = shiftPlanes ![0, 0, 2] ![0, 1, 8] := by
  refine funext fun s => lanes_ext fun y x => ?_
  rw [shiftPlanes_at, rhoEast, at_ofPlanes]
  fin_cases y <;> simp [rotl32_eq_rotateLeft]

theorem rhoWest_bijective : Bijective rhoWest := rhoWest_eq_shiftPlanes ▸ shiftPlanes_bijective _ _

theorem rhoEast_bijective : Bijective rhoEast := rhoEast_eq_shiftPlanes ▸ shiftPlanes_bijective _ _

/-! ### Iota and chi are their own inverses (R83, R84) -/

theorem iota_getElem_zero (i : Nat) (s : Lanes) : (iota i s)[0] = s[0] ^^^ roundConstant i := by
  rw [iota_eq]
  rfl

theorem iota_involutive (i : Nat) : Involutive (iota i) := by
  intro s
  rw [iota, iota_getElem_zero, BitVec.xor_assoc, BitVec.xor_self, BitVec.xor_zero, iota, Vector.set_set]
  exact Vector.set_getElem_self _

/-- Chi on one column, bit by bit: a second chi gives the first lane back. -/
theorem chi_column (a b c : Lane) :
    (a ^^^ (~~~b &&& c)) ^^^ (~~~(b ^^^ (~~~c &&& a)) &&& (c ^^^ (~~~a &&& b))) = a := by
  refine BitVec.eq_of_getLsbD_eq fun i hi => ?_
  simp only [BitVec.getLsbD_xor, BitVec.getLsbD_and, BitVec.getLsbD_not, hi, decide_true, Bool.true_and]
  generalize a.getLsbD i = a, b.getLsbD i = b, c.getLsbD i = c
  revert a b c
  decide

theorem chi_involutive : Involutive chi := by
  refine fun s => lanes_ext fun y x => ?_
  have h11 : y + 1 + 1 = y + 2 := by omega
  have h12 : y + 1 + 2 = y := by omega
  have h21 : y + 2 + 1 = y := by omega
  have h22 : y + 2 + 2 = y + 1 := by omega
  simp only [chi_at, h11, h12, h21, h22]
  exact chi_column _ _ _

/-! ### The round and the permutation (R86, R87) -/

theorem xoodooRound_bijective (i : Nat) : Bijective (xoodooRound i) :=
  rhoEast_bijective.comp (chi_involutive.bijective.comp
    ((iota_involutive i).bijective.comp (rhoWest_bijective.comp theta_bijective)))

/-- The first of the `r + 1` rounds, then the `r` that follow. -/
theorem permute_succ (r : Nat) (s : Lanes) : permute (r + 1) s = permute r (xoodooRound (12 - (r + 1)) s) := rfl

theorem permute_bijective (r : Nat) : Bijective (permute r) := by
  induction r with
  | zero => exact Function.bijective_id
  | succ r ih => exact ih.comp (xoodooRound_bijective _)

/-- The first `m` of the rounds of a permutation, then the permutation of the rest. -/
theorem permute_add (m k : Nat) (s : Lanes) (h : m + k ≤ 12) : permute (m + k) s =
    permute k ((List.range m).foldl (fun l j => xoodooRound (12 - (m + k) + j) l) s) := by
  induction m generalizing s with
  | zero => rw [Nat.zero_add]; rfl
  | succ m ih =>
    have hindex (j : Nat) : 12 - (m + k) + j = 12 - (m + 1 + k) + (j + 1) := by omega
    rw [Nat.add_right_comm m 1 k, permute_succ, ih _ (by omega), List.range_succ_eq_map, List.foldl_cons, List.foldl_map]
    simp only [hindex, Nat.add_right_comm m k 1, Nat.add_zero, Nat.succ_eq_add_one]

/-- Rounds with different constants give different lane files from the same one: the steps after iota are injective. -/
theorem xoodooRound_ne_of_roundConstant_ne {i j : Nat} (h : roundConstant i ≠ roundConstant j) (s : Lanes) :
    xoodooRound i s ≠ xoodooRound j s := by
  intro heq
  have hiota : iota i (rhoWest (theta s)) = iota j (rhoWest (theta s)) :=
    chi_involutive.injective (rhoEast_bijective.injective heq)
  have hlane := congrArg (fun l : Lanes => l[0]) hiota
  simp only [iota_getElem_zero, BitVec.xor_right_inj] at hlane
  exact h hlane

/-- `permute(1)` twice runs round 11 twice, `permute(2)` rounds 10 and 11; no lane file has the same image (R87). -/
theorem permute_one_twice_ne (s : Lanes) : permute 1 (permute 1 s) ≠ permute 2 s := fun h =>
  xoodooRound_ne_of_roundConstant_ne (by decide : roundConstant 11 ≠ roundConstant 10) s
    ((xoodooRound_bijective 11).injective h)

end Sys2Proof.Machine
end

section
/-! PROOFS. The statements about the permutation (41_permutation.md). -/

namespace Sys2Proof.Machine

/-- Settles O34: the rounds of `permute(r)` split after any of them; for two single permutations every lane file is a
counterexample. -/
theorem permuteAppliesTheLastRounds : Obligations.PermuteAppliesTheLastRounds := by
  refine ⟨fun r s hr => permute_add r 0 s hr, fun k r s hkr hr => ?_, Lanes.zero, permute_one_twice_ne Lanes.zero⟩
  have h := permute_add (r - k) k s (by omega)
  rwa [Nat.sub_add_cancel hkr] at h

/-- Settles O35: every step of every round is a bijection. -/
theorem permutationIsABijection : Obligations.PermutationIsABijection := fun r _ => permute_bijective r

/-- Settles O32: the twelve entries evaluated. -/
theorem roundConstantsAreTheTable : Obligations.RoundConstantsAreTheTable := by
  unfold Obligations.RoundConstantsAreTheTable
  decide

/-- Settles O36: PERMUTE takes no data in and has the one cause of rejection. -/
theorem permuteRunsOrRejects : Obligations.PermuteRunsOrRejects := by
  intro r s hdin
  have hl : s.din.length = dinLength (.permute r) := by rw [hdin]; rfl
  have hrun (hr : r ≤ 12) : exec (.permute r) s =
      .next { s with cyclist := { s.cyclist with lanes := permute r s.cyclist.lanes }, busy := .yes ⟨.ok, []⟩ } := by
    rw [exec_of_accepted hl (if_neg (not_lt.2 hr)), complete_of_no_din hdin]
    rfl
  refine ⟨fun hr => decode_encode (i := .permute r) (decide_eq_true hr), hrun, fun h0 => ?_, fun hr => ?_⟩
  · subst h0
    exact hrun (Nat.zero_le 12)
  · rw [exec_of_rejected hl (if_pos hr), reject_of_no_din hdin]

end Sys2Proof.Machine
end

section
/-! PROOFS. Down and Up on a state byte, and what Hash mode makes of their domain bytes (R100, R101). -/

namespace Sys2Proof.Machine

/-! ### Down and Up byte by byte -/

/-- The block, the padding byte 0x01 behind it, zeros (R100). -/
theorem paddedBlock_getD (block : List Byte) (k : Nat) : (paddedBlock block).getD k 0 =
    if k < block.length then block.getD k 0 else if k = block.length then 0x01#8 else 0x00#8 := by
  unfold paddedBlock
  rcases Nat.lt_trichotomy k block.length with h | rfl | h
  · rw [if_pos h, List.getD_append _ _ _ _ h]
  · simp
  · obtain ⟨j, rfl⟩ := Nat.exists_eq_add_of_lt h
    rw [if_neg h.not_gt, if_neg h.ne', List.getD_append_right _ _ _ _ h.le, Nat.add_assoc, Nat.add_sub_cancel_left,
      List.getD_cons_succ]
    simp

theorem paddedBlock_length {block : List Byte} (h : block.length ≤ 47) : (paddedBlock block).length = 48 := by
  simp only [paddedBlock, List.length_append, List.length_cons, List.length_replicate, Config.hashMaxBlock]
  omega

/-- The domain byte goes to byte 47, whatever the block has there (R100). -/
theorem downBuffer_getD (m : Mode) {block : List Byte} (h : block.length ≤ 47) (cd : Byte) (k : Nat) :
    (downBuffer m block cd).getD k 0 = (paddedBlock block).getD k 0 ^^^ (if k = 47 then m.maskCd cd else 0x00#8) := by
  have h47 : 47 < (paddedBlock block).length := by rw [paddedBlock_length h]; decide
  rw [downBuffer]
  by_cases hk : k = 47
  · subst hk
    rw [if_pos rfl, List.getD_eq_getElem _ _ (by rwa [List.length_set]), List.getElem_set_self]
  · rw [if_neg hk, BitVec.xor_zero, List.getD_eq_getElem?_getD, List.getElem?_set_ne (Ne.symm hk),
      List.getD_eq_getElem?_getD]

/-- Down on one state byte (R100). -/
theorem byte_down (c : Cyclist) {block : List Byte} (h : block.length ≤ 47) (cd : Byte) {k : Nat} (hk : k < 48) :
    (c.down block cd).lanes.byte k = c.lanes.byte k ^^^
      (if k < block.length then block.getD k 0 else if k = block.length then 0x01#8 else 0x00#8) ^^^
      (if k = 47 then c.mode.maskCd cd else 0x00#8) := by
  rw [down_lanes, byte_xorBytes _ _ hk, downBuffer_getD _ h, paddedBlock_getD, BitVec.xor_assoc]

/-- What Up permutes, one state byte (R101). -/
theorem byte_beforeUp (c : Cyclist) (cu : Byte) {k : Nat} (hk : k < 48) : (c.beforeUp cu).byte k =
    if k = 47 ∧ c.mode = .keyed then c.lanes.byte k ^^^ cu else c.lanes.byte k := by
  unfold Cyclist.beforeUp
  cases c.mode with
  | hash => simp
  | keyed => simp [byte_xorByteAt c.lanes cu (by decide : 47 < 48) hk]

/-! ### The domain bytes in Hash mode -/

/-- Bit 0 is all that the Hash-mode mask keeps (R100). -/
theorem maskCd_hash_congr {cd cd' : Byte} (h : cd.getLsbD 0 = cd'.getLsbD 0) :
    Mode.hash.maskCd cd = Mode.hash.maskCd cd' := by
  refine BitVec.eq_of_getLsbD_eq fun i hi => ?_
  cases i with
  | zero => simpa [Mode.maskCd] using h
  | succ i => simp [Mode.maskCd]

variable {c : Cyclist}

theorem down_congr_of_hash (hc : c.mode = .hash) {cd cd' : Byte} (h : cd.getLsbD 0 = cd'.getLsbD 0) (block : List Byte) :
    c.down block cd = c.down block cd' := by
  simp only [Cyclist.down, downBuffer, hc, maskCd_hash_congr h]

theorem up_congr_of_hash (hc : c.mode = .hash) (cu cu' : Byte) : c.up cu = c.up cu' := by
  simp only [Cyclist.up, Cyclist.beforeUp, hc]

theorem absorbOne_congr_of_hash (hc : c.mode = .hash) {cd cd' : Byte} (h : cd.getLsbD 0 = cd'.getLsbD 0)
    (block : List Byte) : c.absorbOne block cd = c.absorbOne block cd' :=
  down_congr_of_hash ((sameControl_guardUp c).mode.trans hc) h block

/-- The domain byte of AbsorbAny enters its first Down only (R102). -/
theorem absorbAny_congr_of_hash (hc : c.mode = .hash) {cd cd' : Byte} (h : cd.getLsbD 0 = cd'.getLsbD 0) (x : List Byte)
    (rate : Nat) : c.absorbAny x rate cd = c.absorbAny x rate cd' := by
  unfold Cyclist.absorbAny
  cases absorbChunks rate x with
  | nil => rfl
  | cons b bs => rw [absorbList_cons, absorbList_cons, absorbOne_congr_of_hash hc h]

/-- The domain byte of SqueezeAny enters its first Up only (R103). -/
theorem squeezeAny_congr_of_hash (hc : c.mode = .hash) (n : Nat) (cu cu' : Byte) :
    c.squeezeAny n cu = c.squeezeAny n cu' := by
  unfold Cyclist.squeezeAny
  cases squeezeLengths c.rsqz.bytes n with
  | nil => rfl
  | cons m ms => rw [squeezeList_cons, squeezeList_cons, up_congr_of_hash hc cu cu']

/-- Two commands with the same data-in length, cause of rejection and result do the same. -/
theorem exec_congr {i j : Instr} {s : State} (hl : dinLength i = dinLength j)
    (hrej : rejectionOf i s.cyclist = rejectionOf j s.cyclist)
    (hres : resultOf i s.din s.cyclist = resultOf j s.din s.cyclist) : exec i s = exec j s := by
  rw [exec_eq_transact, exec_eq_transact, transact, transact, hl, bodyOf_eq_elim, bodyOf_eq_elim, hrej, hres]

end Sys2Proof.Machine
end

section
/-! PROOFS. The walks of AbsorbAny, SqueezeAny and Crypt, one chunk at a time (R102, R103, R104). -/

namespace Sys2Proof.Machine

variable {rate : Nat}

/-! ### AbsorbAny (R102) -/

theorem guardUp_eq_ite (c : Cyclist) : c.guardUp = if c.phase ≠ .up then c.up 0x00#8 else c := by
  unfold Cyclist.guardUp
  cases c.phase <;> rfl

theorem absorbChunks_of_ne_nil {x : List Byte} (hx : x ≠ []) : absorbChunks rate x = chunks rate x := by
  cases x with
  | nil => exact absurd rfl hx
  | cons b bs => rfl

/-- A string longer than the rate: its first chunk, then the rest with the continuation byte (R102). -/
theorem absorbAny_of_rate_lt (hr : 1 ≤ rate) {x : List Byte} (hx : rate < x.length) (cd : Byte) (c : Cyclist) :
    c.absorbAny x rate cd = (c.absorbOne (x.take rate) cd).absorbAny (x.drop rate) rate Config.absorbCdMain := by
  have hx0 : x ≠ [] := List.ne_nil_of_length_pos (by omega)
  have hdrop : x.drop rate ≠ [] := List.ne_nil_of_length_pos (by rw [List.length_drop]; omega)
  rw [Cyclist.absorbAny, Cyclist.absorbAny, absorbChunks_of_ne_nil hx0, absorbChunks_of_ne_nil hdrop,
    chunks_of_ne_nil hr hx0, absorbList_cons]

/-! ### SqueezeAny (R103) -/

theorem squeezeAny_zero (cu : Byte) (c : Cyclist) : c.squeezeAny 0 cu = (c, []) := by
  rw [Cyclist.squeezeAny, squeezeLengths_zero, squeezeList_nil]

/-- Up to the rate: one Up (R103). -/
theorem squeezeAny_of_le_rate {n : Nat} {c : Cyclist} (hn : 0 < n) (hr : n ≤ c.rsqz.bytes) (cu : Byte) :
    c.squeezeAny n cu = (c.up cu, (c.up cu).output n) := by
  rw [Cyclist.squeezeAny, squeezeLengths_of_pos (squeezeRate_pos _) hn, Nat.min_eq_left hr, Nat.sub_self,
    squeezeLengths_zero, squeezeList_cons, squeezeMore_nil, List.append_nil]

/-- The further chunks are a squeeze of their own after an empty Down (R103). -/
theorem squeezeMore_eq_squeezeList {ns : List Nat} (h : ns ≠ []) (c : Cyclist) :
    Cyclist.squeezeMore ns c = Cyclist.squeezeList ns 0x00#8 (c.down [] 0x00#8) := by
  cases ns with
  | nil => exact absurd rfl h
  | cons n ns => rw [squeezeMore_cons, squeezeList_cons]

/-- More than the rate: one Up, an empty Down, then the rest with 0x00 (R103). -/
theorem squeezeAny_of_rate_lt {n : Nat} {c : Cyclist} (hr : c.rsqz.bytes < n) (cu : Byte) :
    c.squeezeAny n cu = ((((c.up cu).down [] 0x00#8).squeezeAny (n - c.rsqz.bytes) 0x00#8).1,
      (c.up cu).output c.rsqz.bytes ++ (((c.up cu).down [] 0x00#8).squeezeAny (n - c.rsqz.bytes) 0x00#8).2) := by
  have hrest : squeezeLengths c.rsqz.bytes (n - c.rsqz.bytes) ≠ [] := by
    rw [squeezeLengths_of_pos (squeezeRate_pos _) (Nat.sub_pos_of_lt hr)]
    exact List.cons_ne_nil _ _
  rw [Cyclist.squeezeAny, squeezeLengths_of_pos (squeezeRate_pos _) (by omega), Nat.min_eq_right hr.le, squeezeList_cons,
    squeezeMore_eq_squeezeList hrest, Cyclist.squeezeAny, down_rsqz, up_rsqz]

/-- A shorter output begins a longer one. -/
theorem output_prefix (c : Cyclist) {a b : Nat} (h : a ≤ b) : c.output a <+: c.output b :=
  ⟨_, memRead_take c.lanes 0 h ▸ List.take_append_drop a (c.output b)⟩

/-- A shorter squeeze makes the first Ups of a longer one, so its output begins the longer one's (R103, R151). -/
theorem squeezeAny_prefix {a b : Nat} (h : a ≤ b) (cu : Byte) (c : Cyclist) :
    (c.squeezeAny a cu).2 <+: (c.squeezeAny b cu).2 := by
  induction a using Nat.strong_induction_on generalizing b cu c with
  | _ a ih =>
    rcases Nat.eq_zero_or_pos a with rfl | ha
    · rw [squeezeAny_zero]
      exact List.nil_prefix
    · have hr := squeezeRate_pos c.rsqz
      rcases le_or_gt a c.rsqz.bytes with har | har
      · rw [squeezeAny_of_le_rate ha har]
        rcases le_or_gt b c.rsqz.bytes with hbr | hbr
        · rw [squeezeAny_of_le_rate (by omega) hbr]
          exact output_prefix _ h
        · rw [squeezeAny_of_rate_lt hbr]
          exact (output_prefix _ har).trans (List.prefix_append _ _)
      · rw [squeezeAny_of_rate_lt har, squeezeAny_of_rate_lt (har.trans_le h)]
        exact (List.prefix_append_right_inj _).2 (ih _ (by omega) (by omega) _ _)

/-! ### Crypt (R104) -/

theorem plaintext_eq_ite (dir : Direction) (chunk out : List Byte) :
    dir.plaintext chunk out = if dir = .encrypt then chunk else out := by cases dir <;> rfl

/-- A read from the front of the state, from its bytes. -/
theorem memRead_eq_of_bytes {s : Lanes} {l : List Byte} (h : ∀ k, k < l.length → s.byte k = l.getD k 0) :
    s.memRead 0 l.length = l := by
  refine List.ext_getElem (memRead_length _ _ _) fun k hk hk' => ?_
  rw [← List.getD_eq_getElem _ 0 hk, memRead_getD _ _ _ _ hk', Nat.zero_add, h k hk', List.getD_eq_getElem _ _ hk']

/-- Under the block, a Down leaves the XOR of the state and the block (R100). -/
theorem memRead_down {block l : List Byte} (h : block.length ≤ 47) (hl : l.length = block.length) (c : Cyclist) (cd : Byte)
    (hb : ∀ k, k < block.length → c.lanes.byte k ^^^ block.getD k 0 = l.getD k 0) :
    (c.down block cd).lanes.memRead 0 l.length = l := by
  refine memRead_eq_of_bytes fun k hk => ?_
  rw [hl] at hk
  rw [byte_down c h cd (by omega), if_pos hk, if_neg (by omega), BitVec.xor_zero, hb k hk]

/-- Absorbing the plaintext of a chunk leaves its ciphertext in front of the state, in both directions (R104). -/
theorem memRead_down_plaintext (dir : Direction) {chunk : List Byte} (h : chunk.length ≤ 47) (c : Cyclist) (cd : Byte) :
    (c.down (dir.plaintext chunk (c.lanes.xorExtract chunk)) cd).lanes.memRead 0 chunk.length =
      if dir = .encrypt then c.lanes.xorExtract chunk else chunk := by
  have hx : (c.lanes.xorExtract chunk).length = chunk.length := xorExtract_length _ _
  cases dir with
  | encrypt =>
    rw [if_pos rfl, ← hx]
    exact memRead_down h hx c cd fun k hk => by rw [xorExtract_getD _ _ hk, BitVec.xor_comm]
  | decrypt =>
    rw [if_neg (by decide)]
    refine memRead_down (hx.trans_le h) hx.symm c cd fun k hk => ?_
    rw [xorExtract_getD _ _ (hx ▸ hk), BitVec.xor_comm (chunk.getD k 0), ← BitVec.xor_assoc, BitVec.xor_self,
      BitVec.zero_xor]

end Sys2Proof.Machine
end

section
/-! PROOFS. The Down and Up calls of each walk: their effect and their number (R102, R103, R104, R110). -/

namespace Sys2Proof.Machine

variable {rate : Nat}

/-! ### The effect of the calls -/

theorem runCalls_down (block : List Byte) (cd : Byte) (ks : List Call) (c : Cyclist) :
    runCalls (.down block cd :: ks) c = runCalls ks (c.down block cd) := rfl

theorem runCalls_up (cu : Byte) (n : Nat) (ks : List Call) (c : Cyclist) :
    runCalls (.up cu n :: ks) c = runCalls ks (c.up cu) := rfl

theorem runCalls_append (ks ls : List Call) (c : Cyclist) : runCalls (ks ++ ls) c = runCalls ls (runCalls ks c) :=
  List.foldl_append

theorem runCalls_guardCalls (c : Cyclist) : runCalls (guardCalls c.phase) c = c.guardUp := by
  unfold Cyclist.guardUp
  cases c.phase <;> rfl

/-- The calls of one guarded Down (R102, R124). -/
theorem runCalls_guardedDown (block : List Byte) (cd : Byte) (c : Cyclist) :
    runCalls (guardCalls c.phase ++ [.down block cd]) c = c.absorbOne block cd := by
  rw [runCalls_append, runCalls_guardCalls]
  rfl

theorem runCalls_absorbCalls (bs : List (List Byte)) (cd : Byte) (c : Cyclist) :
    runCalls (absorbCalls bs cd c.phase) c = Cyclist.absorbList bs cd c := by
  induction bs generalizing cd c with
  | nil => rfl
  | cons b bs ih =>
    have hphase : (c.absorbOne b cd).phase = .down := down_phase _ _ _
    rw [absorbCalls, runCalls_append, runCalls_guardCalls, runCalls_down, absorbList_cons, ← ih, hphase, Cyclist.absorbOne]

theorem runCalls_absorbAny (x : List Byte) (rate : Nat) (cd : Byte) (c : Cyclist) :
    runCalls (absorbCalls (absorbChunks rate x) cd c.phase) c = c.absorbAny x rate cd :=
  runCalls_absorbCalls _ _ _

theorem runCalls_squeezeMoreCalls (ns : List Nat) (c : Cyclist) :
    runCalls (squeezeMoreCalls ns) c = (Cyclist.squeezeMore ns c).1 := by
  induction ns generalizing c with
  | nil => rfl
  | cons n ns ih => rw [squeezeMoreCalls, runCalls_down, runCalls_up, ih, squeezeMore_cons]

theorem runCalls_squeezeAny (n : Nat) (cu : Byte) (c : Cyclist) :
    runCalls (squeezeCalls (squeezeLengths c.rsqz.bytes n) cu) c = (c.squeezeAny n cu).1 := by
  unfold Cyclist.squeezeAny
  cases squeezeLengths c.rsqz.bytes n with
  | nil => rfl
  | cons m ms => rw [squeezeCalls, runCalls_up, runCalls_squeezeMoreCalls, squeezeList_cons]

theorem runCalls_cryptCalls (dir : Direction) (bs : List (List Byte)) (cu : Byte) (c : Cyclist) :
    runCalls (cryptCalls dir bs cu c) c = (Cyclist.cryptList dir bs cu c).1 := by
  induction bs generalizing cu c with
  | nil => rfl
  | cons b bs ih => rw [cryptCalls, runCalls_up, runCalls_down, ih, cryptList_cons]

theorem runCalls_crypt (dir : Direction) (msg : List Byte) (c : Cyclist) :
    runCalls (cryptCalls dir (chunks Config.rkout msg) Config.cryptCuInit c) c = (c.crypt dir msg).1 :=
  runCalls_cryptCalls _ _ _ _

/-- AbsorbKey's calls, in Keyed mode already (R105). -/
theorem runCalls_keyCalls {c : Cyclist} (hc : c.phase = .up) (key id counter : List Byte) :
    runCalls (keyCalls key id counter) c.enterKeyed = c.absorbKey key id counter := by
  have hkey : runCalls (absorbCalls (absorbChunks Config.rkin (keyBuffer key id)) Config.absorbKeyCd .up) c.enterKeyed =
      c.enterKeyed.absorbAny (keyBuffer key id) c.enterKeyed.rabs.bytes Config.absorbKeyCd := by
    rw [← runCalls_absorbAny, enterKeyed_phase, hc]
    rfl
  rw [keyCalls_eq, runCalls_append, hkey, Cyclist.absorbKey, absorbCounter_eq]
  split
  · rfl
  · rw [← runCalls_absorbAny counter, absorbAny_phase]

/-- INSTANTIATE's calls, from the Cyclist its key length decides (R105, R120). -/
theorem runCalls_instantiateCalls (key id counter : List Byte) :
    runCalls (instantiateCalls key id counter) (if key.length = 0 then Cyclist.fresh else Cyclist.fresh.enterKeyed) =
      instantiated key id counter := by
  cases key with
  | nil => rfl
  | cons b bs => exact runCalls_keyCalls fresh_phase _ _ _

/-- A ratchet is one Up and one Down: its 16 bytes fit both rates (R127). -/
theorem ratchet_eq (c : Cyclist) : c.ratchet =
    (c.up Config.ratchetCu).down ((c.up Config.ratchetCu).output 16) Config.absorbCdMain := by
  have hsqz : Config.ratchetBytes ≤ c.rsqz.bytes := by cases c.rsqz <;> decide
  have habs : ((c.up Config.ratchetCu).output Config.ratchetBytes).length ≤ (c.up Config.ratchetCu).rabs.bytes := by
    rw [output_length, up_rabs]
    cases c.rabs <;> decide
  rw [Cyclist.ratchet, squeezeAny_of_le_rate (by decide) hsqz, absorbAny_of_length_le habs, absorbOne_of_up (up_phase _ _)]
  rfl

/-- The result of a primitive or Cyclist command is what its calls make (R110, R128). -/
theorem resultOf_eq_runCalls {i : Instr} {din : List Byte} (hi : i.tier ≠ .codec) (hl : din.length = dinLength i)
    (c : Cyclist) : (resultOf i din c).1 = runCalls (callsOf i din c) (callsStart i c) := by
  cases i with
  | loadBytes | storeBytes | xorStateBytes | xorByteAt | xorExtract | permute => exact absurd rfl hi
  | down | up => rfl
  | absorbAny | absorb => exact (runCalls_absorbAny _ _ _ _).symm
  | absorbBlock => exact (runCalls_guardedDown _ _ _).symm
  | squeezeAny | squeeze | squeezeKey => exact (runCalls_squeezeAny _ _ _).symm
  | encrypt | decrypt => exact (runCalls_crypt _ _ _).symm
  | ratchet => exact ratchet_eq c
  | instantiate idLen keyLen counterLen =>
    have h := runCalls_instantiateCalls (keyOf keyLen din) (idOf keyLen idLen din) (counterOf keyLen idLen counterLen din)
    rw [keyOf_length hl] at h
    exact h.symm

/-! ### The number of calls -/

section Kind

variable (block : List Byte) (cd cu : Byte) (n : Nat)

@[simp] theorem isDown_down : (Call.down block cd).isDown = true := rfl
@[simp] theorem isUp_down : (Call.down block cd).isUp = false := rfl
@[simp] theorem isDown_up : (Call.up cu n).isDown = false := rfl
@[simp] theorem isUp_up : (Call.up cu n).isUp = true := rfl

end Kind

theorem countP_isDown_guardCalls (ph : Phase) : (guardCalls ph).countP Call.isDown = 0 := by cases ph <;> rfl

theorem countP_isUp_guardCalls (ph : Phase) : (guardCalls ph).countP Call.isUp = if ph = .up then 0 else 1 := by
  cases ph <;> rfl

/-- One Down a chunk (R102). -/
theorem countP_isDown_absorbCalls (bs : List (List Byte)) (cd : Byte) (ph : Phase) :
    (absorbCalls bs cd ph).countP Call.isDown = bs.length := by
  induction bs generalizing cd ph with
  | nil => rfl
  | cons b bs ih => simp [absorbCalls, List.countP_cons, countP_isDown_guardCalls, ih]

/-- One Up a chunk, but none before the first in phase Up (R102). -/
theorem countP_isUp_absorbCalls (bs : List (List Byte)) (cd : Byte) (ph : Phase) :
    (absorbCalls bs cd ph).countP Call.isUp = bs.length - (if ph = .up then 1 else 0) := by
  induction bs generalizing cd ph with
  | nil => cases ph <;> rfl
  | cons b bs ih => cases ph <;> simp [absorbCalls, countP_isUp_guardCalls, ih, Nat.add_comm]

theorem countP_squeezeMoreCalls (ns : List Nat) :
    (squeezeMoreCalls ns).countP Call.isUp = ns.length ∧ (squeezeMoreCalls ns).countP Call.isDown = ns.length := by
  induction ns with
  | nil => exact ⟨rfl, rfl⟩
  | cons n ns ih => simp [squeezeMoreCalls, List.countP_cons, ih]

/-- One Up a chunk, a Down between two of them (R103). -/
theorem countP_squeezeCalls (ns : List Nat) (cu : Byte) :
    (squeezeCalls ns cu).countP Call.isUp = ns.length ∧ (squeezeCalls ns cu).countP Call.isDown = ns.length - 1 := by
  cases ns with
  | nil => exact ⟨rfl, rfl⟩
  | cons n ns => simp [squeezeCalls, List.countP_cons, countP_squeezeMoreCalls]

/-- One Up and one Down a chunk (R104). -/
theorem countP_cryptCalls (dir : Direction) (bs : List (List Byte)) (cu : Byte) (c : Cyclist) :
    (cryptCalls dir bs cu c).countP Call.isUp = bs.length ∧ (cryptCalls dir bs cu c).countP Call.isDown = bs.length := by
  induction bs generalizing cu c with
  | nil => exact ⟨rfl, rfl⟩
  | cons b bs ih => simp [cryptCalls, List.countP_cons, ih]

/-- The number of chunks of an output is its length over the rate, rounded up (R103). -/
theorem squeezeLengths_length (hr : 1 ≤ rate) (n : Nat) : (squeezeLengths rate n).length = (n + (rate - 1)) / rate := by
  induction n using length_induction hr with
  | zero => rw [squeezeLengths_zero, Nat.div_eq_of_lt (by omega), List.length_nil]
  | step n hn ih =>
    rw [squeezeLengths_of_pos hr hn, List.length_cons, ih, Nat.div_eq_sub_div hr (by omega : rate ≤ n + (rate - 1))]
    rcases le_or_gt n rate with h | h
    · rw [Nat.div_eq_of_lt (by omega), Nat.div_eq_of_lt (by omega)]
    · rw [Nat.min_eq_right h.le, show n - rate + (rate - 1) = n + (rate - 1) - rate by omega]

theorem chunks_length (hr : 1 ≤ rate) (x : List Byte) : (chunks rate x).length = (x.length + (rate - 1)) / rate := by
  rw [← List.length_map (f := List.length), chunks_lengths, squeezeLengths_length hr]

/-- The empty string counts as one chunk to absorb (R102). -/
theorem absorbChunks_length (hr : 1 ≤ rate) (x : List Byte) :
    (absorbChunks rate x).length = max 1 ((x.length + (rate - 1)) / rate) := by
  rcases eq_or_ne x [] with rfl | hx
  · rw [List.length_nil, Nat.div_eq_of_lt (by omega)]
    rfl
  · have hpos : 0 < (chunks rate x).length := List.length_pos_iff.2 (mt (chunks_eq_nil_iff hr).1 hx)
    rw [absorbChunks_of_ne_nil hx, ← chunks_length hr, Nat.max_eq_right hpos]

end Sys2Proof.Machine
end

section
/-! PROOFS. The statements about the Cyclist primitives (42_cyclist_primitives.md). -/

namespace Sys2Proof.Machine

/-- A block the host may ask of a Down leaves room for its padding byte (R100, R106). -/
theorem maxBlock_le_47 (m : Mode) : m.maxBlock ≤ 47 := by cases m <;> decide

/-- Settles O37: the padded block on each state byte, its offset and the domain byte's separately. -/
theorem downMixesThePaddedBlock : Obligations.DownMixesThePaddedBlock := by
  intro cd len s hl bound domain
  have hbound : bound = s.cyclist.mode.maxBlock := by
    unfold bound
    cases s.cyclist.mode <;> rfl
  have hdomain : domain = s.cyclist.mode.maskCd cd := by
    unfold domain
    cases s.cyclist.mode <;> rfl
  rw [hbound, hdomain]
  refine ⟨fun hlen => decode_encode (i := .down cd len) (decide_eq_true hlen), fun hle => ?_, fun hgt => ?_⟩
  · refine ⟨(s.cyclist.down s.din cd).lanes, exec_of_accepted hl (if_neg (not_lt.2 hle)), fun k hk => ?_⟩
    rw [byte_down _ (hl ▸ hle.trans (maxBlock_le_47 _)) cd hk, hl]
  · exact exec_of_rejected hl (if_pos hgt)

/-- Settles O38: the lanes before the permutation byte by byte, the output read after it. -/
theorem upPermutesAndReturnsLeadingBytes : Obligations.UpPermutesAndReturnsLeadingBytes := by
  intro cu outLen s hdin
  have hl : s.din.length = dinLength (.up cu outLen) := by rw [hdin]; rfl
  refine ⟨fun hlen => decode_encode (i := .up cu outLen) (decide_eq_true hlen), fun h48 => ?_, fun h48 => ?_⟩
  · refine ⟨s.cyclist.beforeUp cu, (s.cyclist.up cu).output outLen, ?_, fun k hk => byte_beforeUp _ cu hk,
      output_length _ _, fun k hk => ?_⟩
    · rw [exec_of_accepted hl (if_neg (not_lt.2 h48)), complete_of_no_din hdin]
      rfl
    · rw [Cyclist.output, memRead_getD _ _ _ _ hk, Nat.zero_add, up_lanes, Config.maxRounds]
  · rw [exec_of_rejected hl (if_pos h48), reject_of_no_din hdin]

/-- Settles O39: neither the cause of rejection nor the result depends on what the mask takes away. -/
theorem hashModeMasksDomainBytes : Obligations.HashModeMasksDomainBytes := by
  intro s hs
  refine ⟨fun cu cu' n => ⟨exec_congr rfl rfl ?_, exec_congr rfl rfl (squeezeAny_congr_of_hash hs n cu cu')⟩,
    fun cd cd' len rate h => ⟨exec_congr rfl rfl ?_, exec_congr rfl rfl ?_, exec_congr rfl rfl ?_⟩⟩
  · simp only [resultOf, up_congr_of_hash hs cu cu']
  · simp only [resultOf, down_congr_of_hash hs h]
  · simp only [resultOf, absorbOne_congr_of_hash hs h]
  · simp only [resultOf, absorbAny_congr_of_hash hs h]

/-- Settles O40: the walk's first chunk and the rest; one Down and one guard a chunk. -/
theorem absorbAnyWalksItsChunks : Obligations.AbsorbAnyWalksItsChunks := by
  intro x rate cd c hr guarded calls
  have hguard : guarded = c.guardUp := (guardUp_eq_ite c).symm
  have hdowns : calls.countP Call.isDown = (absorbChunks rate x).length := countP_isDown_absorbCalls _ _ _
  rw [hguard, hdowns]
  exact ⟨fun hx => absorbAny_of_length_le hx cd c, fun hx => absorbAny_of_rate_lt hr hx cd c, absorbAny_phase _ _ _ _,
    (runCalls_absorbAny _ _ _ _).symm, absorbChunks_length hr x, countP_isUp_absorbCalls _ _ _⟩

/-- After squeezing one byte of the fresh Cyclist, a second squeeze permutes again (R103). -/
theorem squeezeAny_twice_ne : (Cyclist.fresh.squeezeAny 1 0x00#8).2 ++
    ((Cyclist.fresh.squeezeAny 1 0x00#8).1.squeezeAny 1 0x00#8).2 ≠ (Cyclist.fresh.squeezeAny (1 + 1) 0x00#8).2 := by
  decide +kernel

/-- Settles O41: the walk's first chunk and the rest; one Up a chunk; one byte and one byte from the fresh Cyclist are not
two. -/
theorem squeezeAnyWalksItsChunks : Obligations.SqueezeAnyWalksItsChunks := by
  refine ⟨fun n cu c => ?_, Cyclist.fresh, 0x00#8, 1, 1, squeezeAny_twice_ne⟩
  intro rate c' calls
  have hrate := squeezeRate_pos c.rsqz
  obtain ⟨hups, hdowns⟩ := countP_squeezeCalls (squeezeLengths c.rsqz.bytes n) cu
  refine ⟨fun h0 => h0 ▸ squeezeAny_zero cu c, fun hn hle => squeezeAny_of_le_rate hn hle cu,
    fun hgt => squeezeAny_of_rate_lt hgt cu, squeezeAny_length _ _ _, (runCalls_squeezeAny _ _ _).symm,
    fun hn => ⟨?_, ?_, ?_⟩⟩
  · rw [squeezeAny_phase, if_neg (Nat.ne_zero_of_lt hn)]
  · exact hups.trans (squeezeLengths_length hrate n)
  · exact hdowns.trans (congrArg (· - 1) hups.symm)

/-- Settles O42: the walk's first chunk and the rest; the plaintext absorbed leaves the ciphertext; one Up and one Down a
chunk. -/
theorem cryptWalksItsChunks : Obligations.CryptWalksItsChunks := by
  intro dir msg c walk calls
  obtain ⟨hups, hdowns⟩ := countP_cryptCalls dir (chunks 24 msg) 0x80#8 c
  have hcount : (chunks 24 msg).length = (msg.length + 23) / 24 := chunks_length (by decide) msg
  refine ⟨rfl, fun cu => ⟨?_, fun hmsg => ?_⟩, crypt_length _ _ _, fun hmsg => ?_, (runCalls_crypt _ _ _).symm,
    hups.trans hcount, hdowns.trans hcount⟩
  · rintro rfl
    exact cryptList_nil cu dir c
  · intro chunk c' o absorbed next
    have habsorbed : absorbed = c'.down (dir.plaintext chunk (c'.lanes.xorExtract chunk)) 0x00#8 := by
      rw [plaintext_eq_ite]
      rfl
    refine ⟨?_, ?_⟩
    · unfold next walk
      rw [chunks_of_ne_nil (by decide) hmsg, cryptList_cons, habsorbed]
      rfl
    · have hchunk : chunk.length ≤ 47 := (List.length_take_le 24 msg).trans (by decide)
      rw [habsorbed, memRead_down_plaintext dir hchunk]
      rfl
  · rw [crypt_phase, if_neg (mt List.length_eq_zero_iff.1 hmsg)]

/-- Settles O43: the two causes of rejection, and AbsorbAny otherwise. -/
theorem absorbAnyCommandAbsorbs : Obligations.AbsorbAnyCommandAbsorbs := by
  intro cd rate len s hl bound
  have hbound : bound = s.cyclist.mode.maxBlock := by
    unfold bound
    cases s.cyclist.mode <;> rfl
  rw [hbound]
  refine ⟨fun hrate hlen => ?_, fun hpos hle => ⟨?_, absorbAny_phase _ _ _ _⟩,
    fun hrej => exec_of_rejected hl (if_pos hrej)⟩
  · exact decode_encode (i := .absorbAny cd rate len) (Bool.and_eq_true_iff.2 ⟨decide_eq_true hrate, decide_eq_true hlen⟩)
  · exact exec_of_accepted hl (if_neg (by omega))

/-- Settles O44: SQUEEZEANY has no cause of rejection. -/
theorem squeezeAnyCommandSqueezes : Obligations.SqueezeAnyCommandSqueezes := by
  intro cu n s hdin
  have hl : s.din.length = dinLength (.squeezeAny cu n) := by rw [hdin]; rfl
  have hrun : exec (.squeezeAny cu n) s = .next { s with
      cyclist := (s.cyclist.squeezeAny n cu).1, busy := .yes ⟨.ok, (s.cyclist.squeezeAny n cu).2⟩ } := by
    rw [exec_of_accepted hl rfl, complete_of_no_din hdin]
    rfl
  refine ⟨fun hn => decode_encode (i := .squeezeAny cu n) (decide_eq_true hn), hrun, squeezeAny_length _ _ _,
    squeezeAny_phase _ _ _, ?_⟩
  rintro rfl
  rw [hrun, squeezeAny_zero]

/-- SQUEEZEANY answers the bytes of SqueezeAny (R109). -/
theorem exec_squeezeAny_dout {cu : Byte} {n : Nat} {s t : State} {r : Response} (h : exec (.squeezeAny cu n) s = .next t)
    (hb : t.busy = .yes r) : r.dout = (s.cyclist.squeezeAny n cu).2 := by
  obtain ⟨-, ⟨-, rfl⟩ | ⟨e, he, -⟩⟩ := exec_result_cases h
  · cases hb
    rfl
  · cases he

/-- Settles O53: the outputs are those of SqueezeAny from one Cyclist, the longer beginning with the shorter. -/
theorem shorterSqueezeIsAPrefix : Obligations.ShorterSqueezeIsAPrefix := by
  intro cu a b s ta tb ra rb hab ha hra hb hrb
  rw [exec_squeezeAny_dout ha hra, exec_squeezeAny_dout hb hrb,
    List.prefix_iff_eq_take.1 (squeezeAny_prefix hab cu s.cyclist), squeezeAny_length]

/-- Settles O55: a command answered OK is completed with its result, which its calls make. -/
theorem commandsRunTheirDownAndUpCalls : Obligations.CommandsRunTheirDownAndUpCalls := by
  intro i s t d hi hexec hbusy
  rw [exec_eq_complete hexec hbusy rfl, complete_cyclist, resultOf_eq_runCalls hi (exec_cases hexec).1]

end Sys2Proof.Machine
end

section
/-! PROOFS. Strings that are cut where the chunks end (R102, R104, R124), Crypt in both directions (R104),
commands without data in, and RATCHET byte by byte (R127). -/

namespace Sys2Proof.Machine

variable {rate : Nat}

/-! ### The chunks of a string given in pieces -/

/-- A piece of at most a rate in front of a string is its first chunk, if it is full or the last (R102, R104). -/
theorem chunks_append {b y : List Byte} (hb : b ≠ []) (hle : b.length ≤ rate) (hfull : y ≠ [] → b.length = rate) :
    chunks rate (b ++ y) = b :: chunks rate y := by
  have hr : 1 ≤ rate := (List.length_pos_iff.2 hb).trans_le hle
  rw [chunks_of_ne_nil hr (List.append_ne_nil_of_left_ne_nil hb y)]
  rcases eq_or_ne y [] with rfl | hy
  · rw [List.append_nil, List.take_of_length_le hle, List.drop_of_length_le hle]
  · rw [← hfull hy, List.take_left, List.drop_left]

/-- Full blocks and a last one of at most a rate, none empty, are the chunks of their concatenation (R102, R124). -/
theorem chunks_flatten_of_full {bs : List (List Byte)} (hfull : ∀ b ∈ bs.dropLast, b.length = rate)
    (hle : ∀ b ∈ bs, b.length ≤ rate) (hne : ∀ b ∈ bs, b ≠ []) : chunks rate bs.flatten = bs := by
  induction bs with
  | nil => rfl
  | cons b bs ih =>
    have hfirst : bs.flatten ≠ [] → b.length = rate := fun h => by
      have hbs : bs ≠ [] := by
        rintro rfl
        exact h rfl
      exact hfull b (by simp [List.dropLast_cons_of_ne_nil hbs])
    have hrest : ∀ d ∈ bs.dropLast, d.length = rate := fun d hd => by
      have hbs : bs ≠ [] := by
        rintro rfl
        cases hd
      exact hfull d (by simp [List.dropLast_cons_of_ne_nil hbs, hd])
    rw [List.flatten_cons, chunks_append (hne b List.mem_cons_self) (hle b List.mem_cons_self) hfirst,
      ih hrest (fun d hd => hle d (List.mem_cons_of_mem _ hd)) (fun d hd => hne d (List.mem_cons_of_mem _ hd))]

/-- The blocks of R124 are the chunks that one AbsorbAny of their concatenation walks, the single empty block too
(R102). -/
theorem absorbChunks_flatten_of_full (hr : 1 ≤ rate) {first : List Byte} {rest : List (List Byte)}
    (hfull : ∀ b ∈ (first :: rest).dropLast, b.length = rate) (hle : ∀ b ∈ first :: rest, b.length ≤ rate)
    (hne : ∀ b ∈ rest, b ≠ []) : absorbChunks rate (first ++ rest.flatten) = first :: rest := by
  rcases eq_or_ne rest [] with rfl | hrest
  · rw [List.flatten_nil, List.append_nil, absorbChunks_of_length_le (hle first List.mem_cons_self)]
  · have hfirst : first.length = rate := hfull first (by simp [List.dropLast_cons_of_ne_nil hrest])
    have hfirst0 : first ≠ [] := List.ne_nil_of_length_pos (hfirst ▸ hr)
    rw [absorbChunks_of_ne_nil (List.append_ne_nil_of_left_ne_nil hfirst0 _)]
    exact chunks_flatten_of_full hfull hle (List.forall_mem_cons.2 ⟨hfirst0, hne⟩)

/-! ### A sequence of ABSORBBLOCKs (R124) -/

/-- An ABSORBBLOCK of at most RABS bytes completes with the block absorbed (R124). -/
theorem exec_absorbBlock_of_le {cd : Byte} {b : List Byte} {s : State} (hb : b.length ≤ s.cyclist.rabs.bytes) :
    exec (.absorbBlock cd b.length) { s with din := b } = .next (complete (s.cyclist.absorbOne b cd) [] s) :=
  exec_of_accepted (s := { s with din := b }) rfl (if_neg (not_lt.2 hb))

/-- The later blocks of a sequence, each within RABS, are absorbed one after the other (R124). -/
theorem execAll_absorbBlocks {rest : List (List Byte)} {c : Cyclist} (hle : ∀ b ∈ rest, b.length ≤ c.rabs.bytes)
    (s : State) :
    HostSide.execAll (rest.map fun b => (.absorbBlock Config.absorbCdMain b.length, b)) (complete c [] s) =
      .next (complete (Cyclist.absorbList rest Config.absorbCdMain c) [] s) := by
  induction rest generalizing c with
  | nil => rfl
  | cons b bs ih =>
    obtain ⟨hb, hbs⟩ := List.forall_mem_cons.1 hle
    have hrabs : (c.absorbOne b Config.absorbCdMain).rabs = c.rabs := (sameControl_absorbOne _ _ _).rabs
    rw [List.map_cons, HostSide.execAll, exec_absorbBlock_of_le (s := complete c [] s) hb, absorbList_cons]
    exact ih (hrabs ▸ hbs)

/-! ### Crypt in both directions (R104) -/

/-- Extracting twice restores the string (R104 (d)). -/
theorem xorExtract_xorExtract (s : Lanes) (b : List Byte) : s.xorExtract (s.xorExtract b) = b := by
  refine List.ext_getElem (by simp) fun k hk hk' => ?_
  rw [← List.getD_eq_getElem _ 0 hk, ← List.getD_eq_getElem _ 0 hk', xorExtract_getD _ _ (by simpa using hk'),
    xorExtract_getD _ _ hk', BitVec.xor_assoc, BitVec.xor_self, BitVec.xor_zero]

/-- The output of Crypt's first chunk is the first chunk of its output (R104). -/
theorem chunks_crypt_output (dir : Direction) {x : List Byte} (hr : 1 ≤ rate) (hx : x ≠ []) (s : Lanes) (cu : Byte)
    (c : Cyclist) :
    chunks rate (s.xorExtract (x.take rate) ++ (Cyclist.cryptList dir (chunks rate (x.drop rate)) cu c).2) =
      s.xorExtract (x.take rate) :: chunks rate (Cyclist.cryptList dir (chunks rate (x.drop rate)) cu c).2 := by
  have hpos := List.length_pos_iff.2 hx
  have hfirst : (s.xorExtract (x.take rate)).length = min rate x.length := by rw [xorExtract_length, List.length_take]
  refine chunks_append (List.ne_nil_of_length_pos (by omega)) (by omega) fun hy => ?_
  have hrest := List.length_pos_iff.2 hy
  rw [cryptList_length, chunks_flatten hr, List.length_drop] at hrest
  omega

/-- Decrypting what encrypting returned absorbs the same plaintext, so it gives it back and ends in the same state
(R104 (d), R126). -/
theorem cryptList_decrypt_encrypt (hr : 1 ≤ rate) (pt : List Byte) (cu : Byte) (c : Cyclist) :
    Cyclist.cryptList .decrypt (chunks rate (Cyclist.cryptList .encrypt (chunks rate pt) cu c).2) cu c =
      ((Cyclist.cryptList .encrypt (chunks rate pt) cu c).1, pt) := by
  induction pt using chunk_induction hr generalizing cu c with
  | nil => rfl
  | step pt hpt ih =>
    rw [chunks_of_ne_nil hr hpt, cryptList_cons, chunks_crypt_output .encrypt hr hpt, cryptList_cons,
      xorExtract_xorExtract]
    simp only [Direction.plaintext, ih, List.take_append_drop]

theorem crypt_decrypt_encrypt (pt : List Byte) (c : Cyclist) :
    c.crypt .decrypt (c.crypt .encrypt pt).2 = ((c.crypt .encrypt pt).1, pt) :=
  cryptList_decrypt_encrypt (by decide) pt _ c

theorem crypt_nil (dir : Direction) (c : Cyclist) : c.crypt dir [] = (c, []) := cryptList_nil _ dir c

/-! ### Commands without data in -/

variable {i : Instr} {s : State}

/-- An accepted command without data in: the new Cyclist and the response. -/
theorem exec_of_accepted_no_din (hdin : s.din = []) (hi : dinLength i = 0) (h : rejectionOf i s.cyclist = none) :
    exec i s = .next { s with
      cyclist := (resultOf i [] s.cyclist).1, busy := .yes ⟨.ok, (resultOf i [] s.cyclist).2⟩ } := by
  rw [exec_of_accepted (by rw [hdin, hi, List.length_nil]) h, complete_of_no_din hdin, hdin]

theorem exec_of_rejected_no_din (hdin : s.din = []) (hi : dinLength i = 0) {e : ErrorKind}
    (h : rejectionOf i s.cyclist = some e) : exec i s = .next { s with busy := .yes ⟨.error e, []⟩ } := by
  rw [exec_of_rejected (by rw [hdin, hi, List.length_nil]) h, reject_of_no_din hdin]

/-! ### The mode a command needs (R13) -/

/-- Not Keyed is Hash (R13). -/
theorem ne_keyed_iff {m : Mode} : m ≠ .keyed ↔ m = .hash := by cases m <;> decide

/-- In a command that Hash mode rejects and that is accepted, the mode is Keyed (R123, R127). -/
theorem mode_keyed_of_accepted {c : Cyclist} {e : ErrorKind} (h : (if c.mode = .hash then some e else none) = none) :
    c.mode = .keyed := by
  by_contra hmode
  rw [if_pos (ne_keyed_iff.1 hmode)] at h
  cases h

/-! ### RATCHET on a state byte (R127) -/

/-- Absorbing back the first 16 bytes zeroes them; the padding byte goes behind them (R100, R127). -/
theorem byte_ratchet {c : Cyclist} (hc : c.mode = .keyed) {k : Nat} (hk : k < 48) : c.ratchet.lanes.byte k =
    if k < 16 then 0x00#8
    else if k = 16 then (c.up Config.ratchetCu).lanes.byte k ^^^ 0x01#8
    else (c.up Config.ratchetCu).lanes.byte k := by
  have hlen : ((c.up Config.ratchetCu).output 16).length = 16 := output_length _ _
  rw [ratchet_eq, byte_down _ (by omega) _ hk, hlen, up_mode, hc, Mode.maskCd, Config.absorbCdMain, ite_self,
    BitVec.xor_zero]
  by_cases h16 : k < 16
  · rw [if_pos h16, if_pos h16, Cyclist.output, memRead_getD _ _ _ _ h16, Nat.zero_add, BitVec.xor_self]
  · rw [if_neg h16, if_neg h16, apply_ite ((c.up Config.ratchetCu).lanes.byte k ^^^ ·), BitVec.xor_zero]

end Sys2Proof.Machine
end

section
/-! PROOFS. The rows of the summary table (R128): MODE, PHASE and the number of calls of each Cyclist command. -/

namespace Sys2Proof.Machine

variable {rate : Nat}

/-- The row of a squeeze: one Up a chunk, a Down between two of them (R103, R128). -/
theorem squeezeAny_summary (n : Nat) (cu : Byte) (c : Cyclist) :
    let calls := squeezeCalls (squeezeLengths c.rsqz.bytes n) cu
    (c.squeezeAny n cu).1.mode = c.mode ∧ (c.squeezeAny n cu).1.phase = (if n > 0 then .up else c.phase) ∧
      calls.countP Call.isDown = (n + (c.rsqz.bytes - 1)) / c.rsqz.bytes - 1 ∧
      calls.countP Call.isUp = (n + (c.rsqz.bytes - 1)) / c.rsqz.bytes := by
  intro calls
  obtain ⟨hups, hdowns⟩ := countP_squeezeCalls (squeezeLengths c.rsqz.bytes n) cu
  rw [squeezeLengths_length (squeezeRate_pos _)] at hups hdowns
  refine ⟨(sameControl_squeezeAny n cu c).mode, ?_, hdowns, hups⟩
  rw [squeezeAny_phase]
  cases n <;> rfl

/-- The row of a Crypt: one Up and one Down a chunk of 24 bytes (R104, R128). -/
theorem crypt_summary (dir : Direction) (msg : List Byte) (c : Cyclist) :
    let calls := cryptCalls dir (chunks Config.rkout msg) Config.cryptCuInit c
    (c.crypt dir msg).1.mode = c.mode ∧ (c.crypt dir msg).1.phase = (if msg.length > 0 then .down else c.phase) ∧
      calls.countP Call.isDown = (msg.length + (24 - 1)) / 24 ∧
      calls.countP Call.isUp = (msg.length + (24 - 1)) / 24 := by
  intro calls
  obtain ⟨hups, hdowns⟩ := countP_cryptCalls dir (chunks Config.rkout msg) Config.cryptCuInit c
  rw [chunks_length (by decide)] at hups hdowns
  refine ⟨(sameControl_crypt dir msg c).mode, ?_, hdowns, hups⟩
  rw [crypt_phase]
  cases msg.length <;> rfl

/-- An absorption: a Down a chunk and at least one, and the guard's Up before each but the first in phase Up (R128). -/
theorem countP_absorbAnyCalls (hr : 1 ≤ rate) (x : List Byte) (cd : Byte) (ph : Phase) :
    let calls := absorbCalls (absorbChunks rate x) cd ph
    calls.countP Call.isDown = max 1 ((x.length + (rate - 1)) / rate) ∧
      calls.countP Call.isUp = calls.countP Call.isDown - 1 + if ph = .down then 1 else 0 := by
  intro calls
  have hdowns : calls.countP Call.isDown = (absorbChunks rate x).length := countP_isDown_absorbCalls _ _ _
  have hups : calls.countP Call.isUp = (absorbChunks rate x).length - if ph = .up then 1 else 0 :=
    countP_isUp_absorbCalls _ _ _
  have hpos : 0 < (absorbChunks rate x).length := List.length_pos_iff.2 (absorbChunks_ne_nil rate x)
  refine ⟨hdowns.trans (absorbChunks_length hr x), ?_⟩
  rw [hups, hdowns]
  cases ph with
  | up => rfl
  | down => exact (Nat.sub_add_cancel hpos).symm

/-- One guarded Down (R128). -/
theorem countP_guardedDown (block : List Byte) (cd : Byte) (ph : Phase) :
    (guardCalls ph ++ [Call.down block cd]).countP Call.isDown = 1 ∧
      (guardCalls ph ++ [Call.down block cd]).countP Call.isUp = if ph = .down then 1 else 0 := by
  cases ph <;> exact ⟨rfl, rfl⟩

/-- The counter path: one Down and its guard's Up a counter byte (R105, R128). -/
theorem countP_counterCalls {counter : List Byte} (h : counter.length ≠ 0) :
    (absorbCalls (absorbChunks Config.counterRate counter) Config.absorbCdMain .down).countP Call.isDown =
        counter.length ∧
      (absorbCalls (absorbChunks Config.counterRate counter) Config.absorbCdMain .down).countP Call.isUp =
        counter.length := by
  obtain ⟨hdowns, hups⟩ := countP_absorbAnyCalls (by decide : 1 ≤ Config.counterRate) counter Config.absorbCdMain .down
  have hpos : 1 ≤ counter.length := Nat.pos_of_ne_zero h
  have hceil : max 1 ((counter.length + (Config.counterRate - 1)) / Config.counterRate) = counter.length := by
    rw [Config.counterRate, Nat.sub_self, Nat.add_zero, Nat.div_one, Nat.max_eq_right hpos]
  rw [hups, hdowns, hceil]
  exact ⟨rfl, Nat.sub_add_cancel hpos⟩

/-- Key material that fits one chunk takes one Down and no Up; the counter follows (R105, R128). -/
theorem countP_keyCalls {key id : List Byte} (hlen : key.length + id.length < Config.rkin) (counter : List Byte) :
    (keyCalls key id counter).countP Call.isDown = 1 + counter.length ∧
      (keyCalls key id counter).countP Call.isUp = counter.length := by
  have hkey : absorbCalls (absorbChunks Config.rkin (keyBuffer key id)) Config.absorbKeyCd .up =
      [.down (keyBuffer key id) Config.absorbKeyCd] := by
    rw [absorbChunks_of_length_le ((keyBuffer_length key id).trans_le hlen)]
    rfl
  rw [keyCalls_eq, hkey, List.countP_append, List.countP_append]
  by_cases h : counter.length = 0
  · rw [if_pos h, h]
    exact ⟨rfl, rfl⟩
  · obtain ⟨hdowns, hups⟩ := countP_counterCalls h
    rw [if_neg h, hdowns, hups]
    exact ⟨rfl, Nat.zero_add _⟩

variable {idLen keyLen m : Nat} {din : List Byte} {c : Cyclist}

/-- The key material of an accepted INSTANTIATE with a key fits one chunk (R120). -/
theorem key_fits_of_accepted (hok : rejectionOf (.instantiate idLen keyLen m) c = none) (h : keyLen ≠ 0) :
    keyLen + idLen < Config.rkin := by
  by_contra hbig
  exact Option.some_ne_none _ ((if_pos ⟨Nat.pos_of_ne_zero h, not_lt.1 hbig⟩).symm.trans hok)

/-- The row of an accepted INSTANTIATE, by the key's length (R120, R128). -/
theorem instantiate_summary (hl : din.length = dinLength (.instantiate idLen keyLen m))
    (hok : rejectionOf (.instantiate idLen keyLen m) c = none) :
    let made := instantiated (keyOf keyLen din) (idOf keyLen idLen din) (counterOf keyLen idLen m din)
    let calls := instantiateCalls (keyOf keyLen din) (idOf keyLen idLen din) (counterOf keyLen idLen m din)
    if keyLen = 0 then
      made.mode = .hash ∧ made.phase = .up ∧ calls.countP Call.isDown = 0 ∧ calls.countP Call.isUp = 0
    else
      made.mode = .keyed ∧ made.phase = .down ∧ calls.countP Call.isDown = 1 + m ∧ calls.countP Call.isUp = m := by
  have hkey : (keyOf keyLen din).length = keyLen := keyOf_length hl
  intro made calls
  unfold made calls
  rw [instantiated_mode, instantiated_phase, instantiateCalls_eq, hkey]
  by_cases h0 : keyLen = 0
  · simp only [if_pos h0]
    exact ⟨trivial, trivial, rfl, rfl⟩
  · have hfit : (keyOf keyLen din).length + (idOf keyLen idLen din).length < Config.rkin := by
      rw [hkey, idOf_length hl]
      exact key_fits_of_accepted hok h0
    obtain ⟨hdowns, hups⟩ := countP_keyCalls hfit (counterOf keyLen idLen m din)
    rw [counterOf_length hl] at hdowns hups
    simp only [if_neg h0]
    exact ⟨trivial, trivial, hdowns, hups⟩

end Sys2Proof.Machine
end

section
/-! PROOFS. The statements about the Cyclist commands (43_cyclist_commands.md). -/

namespace Sys2Proof.Machine

/-- Settles O48: the blocks are the chunks ABSORB walks, and each ABSORBBLOCK absorbs one. -/
theorem absorbBlockSequenceIsOneAbsorb : Obligations.AbsorbBlockSequenceIsOneAbsorb := by
  intro first rest s hfull hle hne
  obtain ⟨hfirst, hrest⟩ := List.forall_mem_cons.1 hle
  have hchunks : absorbChunks s.cyclist.rabs.bytes (first ++ rest.flatten) = first :: rest :=
    absorbChunks_flatten_of_full (absorbRate_pos _) hfull hle hne
  have hrabs : (s.cyclist.absorbOne first 0x03#8).rabs = s.cyclist.rabs := (sameControl_absorbOne _ _ _).rabs
  have habsorb : exec (.absorb (first ++ rest.flatten).length) { s with din := first ++ rest.flatten } =
      .next (complete (s.cyclist.absorbAny (first ++ rest.flatten) s.cyclist.rabs.bytes 0x03#8) [] s) :=
    exec_of_accepted (s := { s with din := first ++ rest.flatten }) rfl rfl
  rw [HostSide.execAll, exec_absorbBlock_of_le hfirst, habsorb, Cyclist.absorbAny, hchunks, absorbList_cons]
  exact execAll_absorbBlocks (hrabs ▸ hrest) s

/-- Settles O50: the response carries Crypt's ciphertext, which Crypt decrypts chunk by chunk. -/
theorem decryptUndoesEncrypt : Obligations.DecryptUndoesEncrypt := by
  intro len s t r hexec hbusy
  obtain ⟨hl, ⟨-, rfl⟩ | ⟨e, he, -⟩⟩ := exec_result_cases hexec
  · cases hbusy
    let u : State := { s with din := (s.cyclist.crypt .encrypt s.din).2 }
    have hct : u.din.length = len := (crypt_length _ _ _).trans hl
    have hdec : resultOf (.decrypt len) u.din u.cyclist = ((s.cyclist.crypt .encrypt s.din).1, s.din) :=
      crypt_decrypt_encrypt s.din s.cyclist
    refine (exec_of_accepted (i := .decrypt len) (s := u) hct rfl).trans ?_
    rw [hdec]
    rfl
  · cases he

/-- Settles O54: one Up and one Down, read on each state byte. -/
theorem ratchetClearsTheFirst16Bytes : Obligations.RatchetClearsTheFirst16Bytes := by
  refine ⟨decode_encode (i := .ratchet) rfl, fun s hdin => ⟨fun hkeyed => ?_, fun hmode => ?_⟩⟩
  · have hok : rejectionOf .ratchet s.cyclist = none := if_neg fun h => ne_keyed_iff.2 h hkeyed
    refine ⟨s.cyclist.ratchet.lanes, ?_, fun k hk => byte_ratchet hkeyed hk⟩
    rw [exec_of_accepted_no_din hdin rfl hok, resultOf, ratchet_eq]
    rfl
  · exact exec_of_rejected_no_din hdin rfl (if_pos (ne_keyed_iff.1 hmode))

/-- Settles O56: the counts of a command's calls, and the control fields of its result. -/
theorem cyclistCommandSummary : Obligations.CyclistCommandSummary := by
  intro i s t d htier hexec hbusy P downs ups ceil squeezed crypted
  obtain ⟨hl, ⟨hok, rfl⟩ | ⟨e, -, rfl⟩⟩ := exec_result_cases hexec
  case inr => cases hbusy
  cases i with
  | instantiate => exact instantiate_summary hl hok
  | absorb n =>
    have hn : s.din.length = n := hl
    have hrate := absorbRate_pos s.cyclist.rabs
    obtain ⟨hdowns, hups⟩ := countP_absorbAnyCalls hrate s.din Config.absorbCdInit s.cyclist.phase
    exact ⟨(sameControl_absorbAny _ _ _ _).mode, absorbAny_phase _ _ _ _, hn ▸ hdowns, hups⟩
  | absorbBlock cd len =>
    obtain ⟨hdowns, hups⟩ := countP_guardedDown s.din cd s.cyclist.phase
    exact ⟨(sameControl_absorbOne _ _ _).mode, down_phase _ _ _, hdowns, hups⟩
  | encrypt n =>
    have hn : s.din.length = n := hl
    exact hn ▸ crypt_summary .encrypt s.din s.cyclist
  | decrypt n =>
    have hn : s.din.length = n := hl
    exact hn ▸ crypt_summary .decrypt s.din s.cyclist
  | squeeze n => exact squeezeAny_summary n _ s.cyclist
  | squeezeKey n => exact ⟨mode_keyed_of_accepted hok, squeezeAny_summary n _ s.cyclist⟩
  | ratchet =>
    have hkeyed : s.cyclist.mode = .keyed := mode_keyed_of_accepted hok
    exact ⟨hkeyed, (sameControl_ratchet s.cyclist).mode.trans hkeyed, absorbAny_phase _ _ _ _, rfl, rfl⟩
  | _ => trivial

/-- Settles O46: ABSORB has no cause of rejection. -/
theorem absorbUsesTheInstanceRate : Obligations.AbsorbUsesTheInstanceRate := by
  intro len s hl rate
  have hrate : rate = s.cyclist.rabs.bytes := by
    unfold rate
    cases s.cyclist.rabs <;> rfl
  rw [hrate]
  exact ⟨fun hlen => decode_encode (i := .absorb len) (decide_eq_true hlen), exec_of_accepted hl rfl,
    absorbAny_phase _ _ _ _⟩

/-- Settles O47: a block within RABS is one guarded Down. -/
theorem absorbBlockGuardsThenDowns : Obligations.AbsorbBlockGuardsThenDowns := by
  intro cd len s hl rate guarded
  have hrate : rate = s.cyclist.rabs.bytes := by
    unfold rate
    cases s.cyclist.rabs <;> rfl
  have hguard : guarded = s.cyclist.guardUp := (guardUp_eq_ite s.cyclist).symm
  rw [hrate, hguard]
  exact ⟨fun hlen => decode_encode (i := .absorbBlock cd len) (decide_eq_true hlen),
    fun hle => exec_of_accepted hl (if_neg (not_lt.2 hle)), fun hgt => exec_of_rejected hl (if_pos hgt)⟩

/-- Settles O49: ENCRYPT and DECRYPT have no cause of rejection. -/
theorem encryptAndDecryptRunCrypt : Obligations.EncryptAndDecryptRunCrypt := by
  intro len s hl enc dec
  have hphase (dir : Direction) (hpos : len > 0) : (s.cyclist.crypt dir s.din).1.phase = .down := by
    rw [crypt_phase, hl, if_neg (Nat.ne_of_gt hpos)]
  have hempty (dir : Direction) (h0 : len = 0) : s.cyclist.crypt dir s.din = (s.cyclist, []) := by
    rw [List.length_eq_zero_iff.1 (hl.trans h0), crypt_nil]
  exact ⟨fun hlen => ⟨decode_encode (i := .encrypt len) (decide_eq_true hlen),
      decode_encode (i := .decrypt len) (decide_eq_true hlen)⟩,
    exec_of_accepted hl rfl, exec_of_accepted hl rfl, (crypt_length _ _ _).trans hl, (crypt_length _ _ _).trans hl,
    fun hpos => ⟨hphase .encrypt hpos, hphase .decrypt hpos⟩, fun h0 => ⟨hempty .encrypt h0, hempty .decrypt h0⟩⟩

/-- Settles O51: SQUEEZE has no cause of rejection. -/
theorem squeezeUsesItsDomainByte : Obligations.SqueezeUsesItsDomainByte := by
  intro n s hdin r
  have hrun : exec (.squeeze n) s = .next { s with cyclist := r.1, busy := .yes ⟨.ok, r.2⟩ } :=
    exec_of_accepted_no_din hdin rfl rfl
  refine ⟨fun hn => decode_encode (i := .squeeze n) (decide_eq_true hn), hrun, squeezeAny_length _ _ _,
    squeezeAny_phase _ _ _, fun h0 => ?_⟩
  have hr : r = (s.cyclist, []) := by
    unfold r
    rw [h0, squeezeAny_zero]
  rw [hrun, hr]

/-- Settles O52: SQUEEZEKEY is rejected by the mode alone. -/
theorem squeezeKeyNeedsKeyedMode : Obligations.SqueezeKeyNeedsKeyedMode := by
  intro n s hdin r
  refine ⟨fun hn => decode_encode (i := .squeezeKey n) (decide_eq_true hn), fun hkeyed => ?_, fun hmode => ?_⟩
  · exact ⟨exec_of_accepted_no_din hdin rfl (if_neg fun h => ne_keyed_iff.2 h hkeyed), squeezeAny_length _ _ _,
      squeezeAny_phase _ _ _⟩
  · exact exec_of_rejected_no_din hdin rfl (if_pos (ne_keyed_iff.1 hmode))

end Sys2Proof.Machine
end

section
/-! PROOFS. The host's tag comparison (R154, R156): what DecryptAEAD and Open report for each of its two outcomes. -/

namespace Sys2Proof.Machine

section TagComparison

variable {dst tag : List Byte} {r1 r2 pt tag' : Response}

theorem decryptResult_of_tag_ne (h : tag'.dout ≠ tag) :
    HostSide.decryptResult tag [r1, r2, pt, tag'] = some ([], false) :=
  congrArg some (if_neg h)

theorem decryptResult_of_tag_eq (h : tag'.dout = tag) :
    HostSide.decryptResult tag [r1, r2, pt, tag'] = some (pt.dout, true) :=
  congrArg some (if_pos h)

/-- Open decides by the validity bit of DecryptAEAD alone (R157). -/
theorem openResult_of_decryptResult_invalid {rs : List Response} {out : List Byte}
    (h : HostSide.decryptResult tag rs = some (out, false)) :
    HostSide.openResult dst tag rs = some (.error .authenticationFailed) := by
  rw [HostSide.openResult, h]
  rfl

theorem openResult_of_decryptResult_valid {rs : List Response} {out : List Byte}
    (h : HostSide.decryptResult tag rs = some (out, true)) :
    HostSide.openResult dst tag rs = some (.ok (dst ++ out)) := by
  rw [HostSide.openResult, h]
  rfl

end TagComparison

/-- Settles O60: the two outcomes of the tag comparison, in DecryptAEAD and through it in Open. -/
theorem tagMismatchReleasesNoPlaintext : Obligations.TagMismatchReleasesNoPlaintext := by
  intro dst tag r1 r2 r3 r4
  refine ⟨fun hne => ?_, fun heq => ?_⟩
  · have hdecrypt := decryptResult_of_tag_ne (r1 := r1) (r2 := r2) (pt := r3) hne
    exact ⟨hdecrypt, openResult_of_decryptResult_invalid hdecrypt⟩
  · have hdecrypt := decryptResult_of_tag_eq (r1 := r1) (r2 := r2) (pt := r3) heq
    exact ⟨hdecrypt, openResult_of_decryptResult_valid hdecrypt⟩

end Sys2Proof.Machine
end

section
/-! PROOFS. What an error status says of the command it answers (R172), and who raises each error kind (R171). -/

namespace Sys2Proof.Machine

section Rejected

variable {s t : State} {r : Response} {e : ErrorKind}

/-- A transaction answered with an error rejected: nothing its body computed stays (R172). -/
theorem transact_eq_reject {n : Nat} {body : List Byte → Cyclist → Except ErrorKind (Cyclist × List Byte)}
    (h : transact n body s = .next t) (hb : t.busy = .yes r) (hr : r.status = .error e) : t = reject e s := by
  obtain ⟨-, ⟨c, dout, -, rfl⟩ | ⟨e', -, rfl⟩⟩ := transact_cases h
  · cases hb
    cases hr
  · cases hb
    cases hr
    rfl

theorem exec_eq_reject {i : Instr} (h : exec i s = .next t) (hb : t.busy = .yes r) (hr : r.status = .error e) :
    t = reject e s :=
  transact_eq_reject (exec_eq_transact i s ▸ h) hb hr

/-- A presented word answered with an error, an illegal one too, was rejected (R57, R172). -/
theorem runCommand_eq_reject {cw : CommandWord} (h : runCommand cw s = .next t) (hb : t.busy = .yes r)
    (hr : r.status = .error e) : t = reject e s := by
  cases hd : decode cw with
  | ok i => exact exec_eq_reject (runCommand_of_ok hd s ▸ h) hb hr
  | error _ => exact transact_eq_reject (runCommand_of_error hd s ▸ h) hb hr

end Rejected

/-! ### The table's conditions and kinds (R171, R173) -/

/-- What is longer than the mode's longest block, mode by mode (R106, R108). -/
theorem gt_maxBlock_iff (m : Mode) (n : Nat) :
    n > m.maxBlock ↔ (m = .keyed ∧ n > 44) ∨ (m = .hash ∧ n > 47) := by
  cases m <;> simp [Mode.maxBlock, Config.hashMaxBlock, Config.rkin]

theorem raisedByCore_iff_mem (e : ErrorKind) : e.raisedByCore = true ↔
    e ∈ [.invalidRounds, .invalidStateLength, .keyTooLarge, .modeViolation, .invalidOperand, .illegalCommand] := by
  cases e <;> decide

/-- Some step of an idle core answers with the error kind. -/
def AnsweredByIdleCore (e : ErrorKind) : Prop :=
  ∃ (s t : State) (dout : List Byte), s.busy = .no ∧ step s = .next t ∧ t.busy = .yes ⟨.error e, dout⟩

/-- A step that answers with an error kind rejected with it, and the core raises it (R171). -/
theorem AnsweredByIdleCore.raisedByCore {e : ErrorKind} : AnsweredByIdleCore e → e.raisedByCore = true := by
  rintro ⟨s, t, dout, -, hstep, hbusy⟩
  obtain ⟨rest, rfl⟩ | ⟨rest, rfl⟩ | ⟨cw, din, rest, i, -, -, rfl⟩ | ⟨din, rest, e', he', rfl⟩ := step_next_cases hstep
  · rw [deliver_busy] at hbusy
    cases hbusy
  · cases hbusy
  · cases hbusy
  · cases hbusy
    exact he'

/-- The core after reset with one command presented to it, whose data in are zeros. -/
def resetPresenting (i : Instr) : State :=
  { State.reset with inputs := [.command (encode i) (List.replicate (dinLength i) 0x00#8)] }

/-- The cause of rejection of a command in the fresh Cyclist is answered when the word of that command is presented. -/
theorem answered_of_rejectionOf_fresh {i : Instr} {e : ErrorKind} (hi : i.wf = true)
    (h : rejectionOf i Cyclist.fresh = some e) : AnsweredByIdleCore e := by
  have hstep : step (resetPresenting i) = exec i (accept (List.replicate (dinLength i) 0x00#8) [] (resetPresenting i)) :=
    (step_of_command rfl rfl).trans (runCommand_of_ok (decode_encode hi) _)
  exact ⟨_, _, [], rfl, hstep.trans (exec_of_rejected List.length_replicate h), reject_busy e _⟩

/-- The zero word, which is no command (R57). -/
theorem answered_illegalCommand : AnsweredByIdleCore .illegalCommand :=
  have ⟨_, hzero, hanswer⟩ := illegalWordsAreAnsweredIllegalCommand
  ⟨{ State.reset with inputs := [.command 0 []] }, _, [], rfl, hanswer 0 [] _ hzero rfl rfl, rfl⟩

/-- Each kind that R171 gives to the core is answered: one command past its bound for each, on the fresh Cyclist. -/
theorem answered_of_raisedByCore {e : ErrorKind} (h : e.raisedByCore = true) : AnsweredByIdleCore e := by
  cases e with
  | invalidRounds => exact answered_of_rejectionOf_fresh (i := .permute 13) rfl rfl
  | invalidStateLength => exact answered_of_rejectionOf_fresh (i := .loadBytes 47) rfl rfl
  | keyTooLarge => exact answered_of_rejectionOf_fresh (i := .instantiate 0 44 0) rfl rfl
  | modeViolation => exact answered_of_rejectionOf_fresh (i := .ratchet) rfl rfl
  | invalidOperand => exact answered_of_rejectionOf_fresh (i := .up 0x00#8 49) rfl rfl
  | illegalCommand => exact answered_illegalCommand
  | invalidKeyLength | invalidNonceLength | invalidCiphertextLength | authenticationFailed => cases h

theorem answeredByIdleCore_iff (e : ErrorKind) : AnsweredByIdleCore e ↔ e.raisedByCore = true :=
  ⟨AnsweredByIdleCore.raisedByCore, answered_of_raisedByCore⟩

end Sys2Proof.Machine
end

section
/-! PROOFS. The statements about rejections and status codes (60_exceptions.md). -/

namespace Sys2Proof.Machine

/-- Settles O14: an error status means the state is `reject` of the state before, which delivery then leaves idle. -/
theorem rejectionChangesNothing : Obligations.RejectionChangesNothing := by
  refine ⟨fun _ _ _ _ _ hexec hbusy hr => exec_eq_reject hexec hbusy hr, ?_⟩
  intro s t cw din rest r e hidle hin hstep hbusy hr
  obtain rfl : t = reject e (accept din rest s) :=
    runCommand_eq_reject ((step_of_command hidle hin).symm.trans hstep) hbusy hr
  refine ⟨rfl, fun hreset => ?_⟩
  obtain ⟨later, hdeliver, -⟩ := busyCoreDeliversItsResponse _ _ (reject_busy e _) hreset
  exact ⟨_, hdeliver, rfl, rfl, rfl, rfl, fun _ _ _ => step_of_command rfl rfl⟩

/-- Settles O15: the table's condition is the model's cause of rejection, row by row. -/
theorem rejectionCausesByCommand : Obligations.RejectionCausesByCommand := by
  constructor
  · intro i s hl cause
    have hcause : cause = rejectionOf i s.cyclist := by
      unfold cause
      cases i with
      | down cd len => exact if_congr (gt_maxBlock_iff _ _).symm rfl rfl
      | absorbAny cd rate len => exact if_congr (or_congr_right (gt_maxBlock_iff _ _).symm) rfl rfl
      | _ => rfl
    rw [hcause]
    cases hrej : rejectionOf i s.cyclist with
    | some e => exact ⟨_, _, exec_of_rejected hl hrej, reject_busy e s, rfl⟩
    | none => exact ⟨_, _, exec_of_accepted hl hrej, complete_busy _ _ s, rfl⟩
  · intro cw rest s hb hi hcw
    obtain ⟨-, -, hanswer⟩ := illegalWordsAreAnsweredIllegalCommand
    exact ⟨_, hanswer cw rest s hcw hb hi, rfl⟩

/-- Settles O16: the codes evaluated; the kinds an idle core answers with are those the core raises. -/
theorem statusCodesAndTheirOrigin : Obligations.StatusCodesAndTheirOrigin :=
  ⟨by decide, fun e => (answeredByIdleCore_iff e).trans (raisedByCore_iff_mem e)⟩

end Sys2Proof.Machine
end

section
/-! PROOFS. What a well-framed command and a reset do to the channel, and runs of well-framed states (R50, R53, R201,
R209). -/

namespace Sys2Proof.Machine

variable {s t : State} {cw : CommandWord} {din : List Byte} {rest : List HostInput}

/-! ### How a command ends (R54) -/

@[simp] theorem conclude_inputs (r : Except ErrorKind (Cyclist × List Byte)) (s : State) :
    (conclude r s).inputs = s.inputs := by cases r <;> rfl

@[simp] theorem conclude_received (r : Except ErrorKind (Cyclist × List Byte)) (s : State) :
    (conclude r s).received = s.received := by cases r <;> rfl

theorem conclude_busy (r : Except ErrorKind (Cyclist × List Byte)) (s : State) :
    ∃ answer, (conclude r s).busy = .yes answer := by cases r <;> exact ⟨_, rfl⟩

/-! ### A well-framed command presented to an idle core (R50, R53) -/

/-- A word, legal or not, with the data in it calls for is brought to its end (R53, R57). -/
theorem runCommand_of_length (h : s.din.length = dinLengthOfWord cw) :
    ∃ r, runCommand cw s = .next (conclude r s) := by
  cases hd : decode cw with
  | ok i => exact ⟨_, (runCommand_of_ok hd s).trans (exec_of_length (h.trans (dinLengthOfWord_of_ok hd)))⟩
  | error e => exact ⟨_, (runCommand_of_error hd s).trans (transact_of_length (h.trans (dinLengthOfWord_of_error hd)))⟩

/-- The step that runs a well-framed command: it holds a response, and only the command left the channel (R50). -/
theorem step_of_framed_command (hb : s.busy = .no) (hin : s.inputs = .command cw din :: rest)
    (hl : din.length = dinLengthOfWord cw) :
    ∃ (u : State) (r : Response), step s = .next u ∧ runCommand cw (accept din rest s) = .next u ∧ u.busy = .yes r ∧
      u.inputs = rest ∧ u.received = s.received := by
  obtain ⟨out, hrun⟩ := runCommand_of_length (s := accept din rest s) hl
  obtain ⟨answer, hbusy⟩ := conclude_busy out (accept din rest s)
  exact ⟨_, answer, (step_of_command hb hin).trans hrun, hrun, hbusy, conclude_inputs _ _, conclude_received _ _⟩

/-- The two steps of a well-framed command that no reset follows: the second delivers its response, and takes from the channel
at most a pause (R50, R54). -/
theorem steps_of_framed_command (hb : s.busy = .no) (hin : s.inputs = .command cw din :: rest)
    (hl : din.length = dinLengthOfWord cw) (hreset : ({ s with inputs := rest } : State).noResetNext = true) :
    ∃ (u t : State) (r : Response), step s = .next u ∧ runCommand cw (accept din rest s) = .next u ∧ u.busy = .yes r ∧
      step u = .next t ∧ t.busy = .no ∧ t.received = s.received ++ [r] ∧ t.cyclist = u.cyclist ∧
      (t.inputs = rest ∨ rest = .nothing :: t.inputs) := by
  obtain ⟨u, r, hs, hrun, hbusy, rfl, hreceived⟩ := step_of_framed_command hb hin hl
  obtain ⟨later, hdeliver, hnil, hcommand, hnothing⟩ := busyCoreDeliversItsResponse u r hbusy hreset
  refine ⟨u, _, r, hs, hrun, hbusy, hdeliver, rfl, by rw [hreceived], rfl, ?_⟩
  rcases hpresented : u.inputs with _ | ⟨_ | _ | _, events⟩
  case nil => exact .inl (hnil hpresented)
  case cons.command => exact .inl ((hcommand _ _ _ hpresented).trans hpresented)
  case cons.reset => simp [State.noResetNext, hpresented] at hreset
  case cons.nothing => exact .inr (by rw [hnothing _ hpresented])

/-! ### Reset (R201) -/

theorem step_of_reset (hin : s.inputs = .reset :: rest) : step s = .next (applyReset rest s) := by
  simp only [step, hin]

/-! ### Well-framed states (R53, R209) -/

theorem wellFramed_iff : s.wellFramed = true ↔ ∀ e ∈ s.inputs, e.wellFramed = true := List.all_eq_true

/-- A well-framed step takes events off the front of the channel or leaves it: none is added. -/
theorem step_of_wellFramed (h : s.wellFramed = true) : ∃ t, step s = .next t ∧ t.inputs <:+ s.inputs := by
  have hframed {cw din rest} (hin : s.inputs = .command cw din :: rest) (hb : s.busy = .no) :
      ∃ t, step s = .next t ∧ t.inputs <:+ s.inputs := by
    have hl : din.length = dinLengthOfWord cw := eq_of_beq (wellFramed_iff.1 h (.command cw din) (by simp [hin]))
    obtain ⟨u, _, hs, -, -, hu, -⟩ := step_of_framed_command hb hin hl
    exact ⟨u, hs, by rw [hu, hin]; exact List.suffix_cons _ _⟩
  obtain ⟨-, hs⟩ | ⟨rest, hin, hs⟩ | ⟨rest, hin, hs⟩ | ⟨_, _, _, _, -, -, hs⟩ | ⟨_, _, _, _, hin, hb, -⟩ |
    ⟨_, _, _, _, hin, hb, -⟩ := step_cases s
  · exact ⟨_, hs, by rw [deliver_inputs]⟩
  · exact ⟨_, hs, by rw [deliver_inputs, hin]; exact List.suffix_cons _ _⟩
  · exact ⟨_, hs, by rw [applyReset_inputs, hin]; exact List.suffix_cons _ _⟩
  · exact ⟨_, hs, by rw [deliver_inputs]⟩
  · exact hframed hin hb
  · exact hframed hin hb

theorem step_keeps_wellFramed (h : s.wellFramed = true) : ∃ t, step s = .next t ∧ t.wellFramed = true := by
  obtain ⟨t, hs, hsuffix⟩ := step_of_wellFramed h
  exact ⟨t, hs, wellFramed_iff.2 fun e he => wellFramed_iff.1 h e (hsuffix.subset he)⟩

theorem safeRun_of_wellFramed (n : Nat) (h : s.wellFramed = true) : SafeRun n s := by
  induction n generalizing s with
  | zero => rfl
  | succ n ih =>
    obtain ⟨t, hs, ht⟩ := step_keeps_wellFramed h
    rw [SafeRun, run_succ hs]
    exact ih ht

end Sys2Proof.Machine
end

section
/-! PROOFS. Runs of several commands from an idle core, and the commands that make a given Cyclist (R207). -/

namespace Sys2Proof.Machine

/-! ### Runs of several commands -/

/-- The Cyclist a command leaves: that of its result, or the one it found when it is rejected (R172). -/
def Cyclist.after (c : Cyclist) (call : Instr × List Byte) : Cyclist :=
  (rejectionOf call.1 c).elim (resultOf call.1 call.2 c).1 fun _ => c

theorem after_of_accepted {i : Instr} {c : Cyclist} (h : rejectionOf i c = none) (din : List Byte) :
    c.after (i, din) = (resultOf i din c).1 := by rw [Cyclist.after, h]; rfl

/-- A command that answers a next state leaves the Cyclist `Cyclist.after` says. -/
theorem exec_cyclist {i : Instr} {s t : State} (h : exec i s = .next t) : t.cyclist = s.cyclist.after (i, s.din) := by
  obtain ⟨-, ⟨hok, rfl⟩ | ⟨e, hrej, rfl⟩⟩ := exec_result_cases h
  · rw [after_of_accepted hok, complete_cyclist]
  · rw [Cyclist.after, hrej, reject_cyclist]
    rfl

/-- A call the host can present: some word spells the command, and it comes with the data in that word calls for. -/
def Presentable (call : Instr × List Byte) : Prop := call.1.wf = true ∧ call.2.length = dinLength call.1

/-- What the host presents to make the calls. -/
def present (calls : List (Instr × List Byte)) : List HostInput := calls.map fun call => HostSide.issue call.1 call.2

theorem dinLengthOfWord_encode {i : Instr} (h : i.wf = true) : dinLengthOfWord (encode i) = dinLength i :=
  dinLengthOfWord_of_ok (decode_encode h)

theorem present_wellFramed {calls : List (Instr × List Byte)} (h : ∀ call ∈ calls, Presentable call) :
    (present calls).all HostInput.wellFramed = true := by
  rw [present, List.all_map, List.all_eq_true]
  intro call hcall
  obtain ⟨hwf, hl⟩ := h call hcall
  exact beq_iff_eq.2 (hl.trans (dinLengthOfWord_encode hwf).symm)

/-- An idle core runs and answers the first call in two steps and is idle again, the other calls still presented (R50). -/
theorem steps_of_first_call {call : Instr × List Byte} {calls : List (Instr × List Byte)} {s : State}
    (hcall : Presentable call) (hb : s.busy = .no) (hin : s.inputs = present (call :: calls)) :
    ∃ u t, step s = .next u ∧ step u = .next t ∧ t.busy = .no ∧ t.inputs = present calls ∧
      t.cyclist = s.cyclist.after call := by
  obtain ⟨i, din⟩ := call
  obtain ⟨hwf, hl⟩ := hcall
  have hreset : ({ s with inputs := present calls } : State).noResetNext = true := by cases calls <;> rfl
  obtain ⟨u, t, _, hs, hrun, -, hdeliver, hidle, -, hcyclist, hinputs⟩ :=
    steps_of_framed_command hb hin (hl.trans (dinLengthOfWord_encode hwf).symm) hreset
  have hafter := exec_cyclist ((runCommand_of_ok (decode_encode hwf) _).symm.trans hrun)
  refine ⟨u, t, hs, hdeliver, hidle, hinputs.resolve_right fun h => ?_, hcyclist.trans hafter⟩
  cases calls <;> cases h

/-- The calls run one after the other, each on the Cyclist the one before it left (R207). -/
theorem run_calls {calls : List (Instr × List Byte)} (hcalls : ∀ call ∈ calls, Presentable call) {s : State}
    (hb : s.busy = .no) (hin : s.inputs = present calls) :
    ∃ n t, Sys2Proof.core.run n s = .next t ∧ t.busy = .no ∧ t.cyclist = calls.foldl Cyclist.after s.cyclist := by
  induction calls generalizing s with
  | nil => exact ⟨0, s, run_zero s, hb, rfl⟩
  | cons call calls ih =>
    obtain ⟨hcall, hrest⟩ := List.forall_mem_cons.1 hcalls
    obtain ⟨u, t, hs, hdeliver, hidle, hinputs, hcyclist⟩ := steps_of_first_call hcall hb hin
    obtain ⟨n, v, hrun, hv, hfold⟩ := ih hrest hidle hinputs
    exact ⟨n + 2, v, (run_succ hs).trans ((run_succ hdeliver).trans hrun), hv, by rw [hfold, hcyclist, List.foldl_cons]⟩

/-! ### The commands that make a Cyclist (R207) -/

/-- A key that INSTANTIATE reads the mode from: none for Hash, one byte for Keyed (R120). -/
def keyFor : Mode → List Byte
  | .hash => []
  | .keyed => [0x00#8]

/-- A command without data in that leaves the phase (R106, R107). -/
def phaseCommand : Phase → Instr
  | .up => .up 0x00#8 0
  | .down => .down 0x00#8 0

/-- INSTANTIATE for the mode, a Down or an Up for the phase, and LOADBYTES, which keeps both, for the lanes. -/
def callsMaking (L : Lanes) (m : Mode) (p : Phase) : List (Instr × List Byte) :=
  [(.instantiate 0 (keyFor m).length 0, keyFor m), (phaseCommand p, []), (.loadBytes 48, L.toBytes)]

theorem presentable_callsMaking (L : Lanes) (m : Mode) (p : Phase) : ∀ call ∈ callsMaking L m p, Presentable call := by
  have hkey : Presentable (.instantiate 0 (keyFor m).length 0, keyFor m) := by cases m <;> exact ⟨rfl, rfl⟩
  have hphase : Presentable (phaseCommand p, []) := by cases p <;> exact ⟨rfl, rfl⟩
  simp only [callsMaking, List.forall_mem_cons]
  exact ⟨hkey, hphase, ⟨rfl, toBytes_length L⟩, fun _ h => nomatch h⟩

/-- INSTANTIATE with the mode's key writes the mode and its rates. -/
theorem after_instantiate_keyFor (m : Mode) (c : Cyclist) :
    (c.after (.instantiate 0 (keyFor m).length 0, keyFor m)).mode = m ∧
      (c.after (.instantiate 0 (keyFor m).length 0, keyFor m)).ratesAgree = true := by
  have hok : rejectionOf (.instantiate 0 (keyFor m).length 0) c = none := by cases m <;> rfl
  rw [after_of_accepted hok]
  refine ⟨?_, ratesAgree_instantiated _ _ _⟩
  rw [resultOf, instantiated_mode]
  cases m <;> rfl

/-- The phase's command writes PHASE and keeps MODE and the rates. -/
theorem after_phaseCommand (p : Phase) (c : Cyclist) :
    (c.after (phaseCommand p, [])).phase = p ∧ SameControl (c.after (phaseCommand p, [])) c := by
  have hok : rejectionOf (phaseCommand p) c = none := by cases p <;> rfl
  rw [after_of_accepted hok]
  cases p with
  | up => exact ⟨up_phase _ _, sameControl_up _ _⟩
  | down => exact ⟨down_phase _ _ _, sameControl_down _ _ _⟩

theorem after_loadBytes (L : Lanes) (c : Cyclist) : c.after (.loadBytes 48, L.toBytes) = { c with lanes := L } := by
  rw [after_of_accepted rfl, resultOf, ofBytes_toBytes]

/-- The three commands make exactly the Cyclist asked for, with the rates of its mode (R16, R207). -/
theorem after_callsMaking (L : Lanes) (m : Mode) (p : Phase) (c : Cyclist) :
    (callsMaking L m p).foldl Cyclist.after c =
      { lanes := L, mode := m, phase := p, rabs := m.absorbRate, rsqz := m.squeezeRate } := by
  simp only [callsMaking, List.foldl_cons, List.foldl_nil, after_loadBytes]
  obtain ⟨hmode, hrates⟩ := after_instantiate_keyFor m c
  generalize c.after (.instantiate 0 (keyFor m).length 0, keyFor m) = made at hmode hrates ⊢
  obtain ⟨hphase, hsame⟩ := after_phaseCommand p made
  obtain ⟨hrabs, hrsqz⟩ := Bool.and_eq_true_iff.1 hrates
  rw [beq_iff_eq, hmode] at hrabs hrsqz
  rw [hphase, hsame.mode, hsame.rabs, hsame.rsqz, hmode, hrabs, hrsqz]

end Sys2Proof.Machine
end

section
/-! PROOFS. The statements about reset, reachability, safe runs and delivery (70_reset_and_hazards.md). -/

namespace Sys2Proof.Machine

/-- Settles O57: the three commands presented after reset, in two steps each. -/
theorem everyLanesModePhaseIsReachable : Obligations.EveryLanesModePhaseIsReachable := by
  intro L m p
  have hcalls := presentable_callsMaking L m p
  obtain ⟨n, t, hrun, hidle, hcyclist⟩ :=
    run_calls (s := { State.reset with inputs := present (callsMaking L m p) }) hcalls rfl rfl
  exact ⟨_, n, t, present_wellFramed hcalls, hrun, hcyclist.trans (after_callsMaking L m p _), hidle⟩

/-- Settles O58: a step only takes events off the channel, so what is left of it stays well framed. -/
theorem wellFramedRunsNeverStop : Obligations.WellFramedRunsNeverStop :=
  ⟨fun _ => step_keeps_wellFramed, fun n _ => safeRun_of_wellFramed n⟩

/-- Settles O59: the step that runs the command and the step that delivers its response, as a run of two. -/
theorem acceptedCommandIsAnswered : Obligations.AcceptedCommandIsAnswered := by
  intro s cw din rest hb hin hl hreset
  obtain ⟨u, t, r, hs, hrun, hbusy, hdeliver, hleft⟩ := steps_of_framed_command hb hin hl hreset
  exact ⟨u, t, r, hs, hrun, hbusy, (run_succ hs).trans (run_succ hdeliver), hleft⟩

/-- Settles O10: the fields of the reset state; both a reset and an INSTANTIATE without a key make the fresh Cyclist. -/
theorem resetGivesTheFreshInstance : Obligations.ResetGivesTheFreshInstance := by
  refine ⟨by decide, rfl, rfl, rfl, rfl, rfl, fun s rest hin => ?_, fun s hdin => ?_⟩
  · exact ⟨_, step_of_reset hin, applyReset_cyclist rest s, rfl⟩
  · exact ⟨_, exec_of_accepted_no_din hdin rfl rfl, rfl⟩

/-- Settles O11: a reset discards the held response with the rest of the core's state. -/
theorem resetAbandonsTheRunningCommand : Obligations.ResetAbandonsTheRunningCommand :=
  fun _ _ _ _ hin => step_of_reset hin

end Sys2Proof.Machine
end

section
/-! PROOFS. Which steps and commands stop (D24, U11), and what a step does when nothing is presented (R179). -/

namespace Sys2Proof.Machine

variable {s : State} {cw : CommandWord}

theorem step_of_no_event (hin : s.inputs = []) : step s = .next (deliver s) := by
  simp only [step, hin]

/-- The counterpart of `exec_of_length`: a command with other data in than its word fixes is malformed (R53, D24). -/
theorem exec_of_length_ne {i : Instr} (h : s.din.length ≠ dinLength i) : exec i s = .fault .malformedTransaction := by
  rw [exec_eq_transact, transact_of_length_ne h]

/-- The counterpart of `runCommand_of_length`, for words legal and illegal (R53, D24). -/
theorem runCommand_of_length_ne (h : s.din.length ≠ dinLengthOfWord cw) :
    runCommand cw s = .fault .malformedTransaction := by
  cases hd : decode cw with
  | ok i =>
    rw [dinLengthOfWord_of_ok hd] at h
    rw [runCommand_of_ok hd, exec_of_length_ne h]
  | error e =>
    rw [dinLengthOfWord_of_error hd] at h
    rw [runCommand_of_error hd, rejectIllegal, transact_of_length_ne h]

/-- A step that runs no command delivers or resets, so it answers a next state. -/
theorem step_of_no_command_run (h : (∀ cw din rest, s.inputs ≠ .command cw din :: rest) ∨ s.busy ≠ .no) :
    ∃ t, step s = .next t := by
  have hruns {cw din rest} (hin : s.inputs = .command cw din :: rest) (hb : s.busy = .no) : False :=
    h.elim (fun hnone => hnone cw din rest hin) (fun hbusy => hbusy hb)
  obtain ⟨-, hs⟩ | ⟨_, -, hs⟩ | ⟨_, -, hs⟩ | ⟨_, _, _, _, -, -, hs⟩ | ⟨_, _, _, _, hin, hb, -⟩ |
    ⟨_, _, _, _, hin, hb, -⟩ := step_cases s
  · exact ⟨_, hs⟩
  · exact ⟨_, hs⟩
  · exact ⟨_, hs⟩
  · exact ⟨_, hs⟩
  · exact (hruns hin hb).elim
  · exact (hruns hin hb).elim

/-- Settles O9: the step delivers, and an idle core has nothing to deliver. -/
theorem idleCoreHoldsItsState : Obligations.IdleCoreHoldsItsState := by
  intro s hidle hin
  rw [step_of_no_event hin, deliver_of_idle s hidle]

/-- Settles O12: a command, and a word presented to an idle core, is one transaction; every other step delivers or resets. -/
theorem onlyMalformedTransactionsStop : Obligations.OnlyMalformedTransactionsStop := by
  refine ⟨fun i s => ⟨exec_of_length_ne, fun hl => ⟨_, exec_of_length hl⟩⟩,
    fun s cw din rest hb hin => ⟨fun hl => ?_, fun hl => ?_⟩, fun s => step_of_no_command_run⟩
  · rw [step_of_command hb hin, runCommand_of_length_ne hl]
  · obtain ⟨t, _, hs, -⟩ := step_of_framed_command hb hin hl
    exact ⟨t, hs⟩

end Sys2Proof.Machine
end
